-- ==== Sys2Proof/Word.lean ====
section
/-! DEFINITION. The word types of BIGINT239-CORE (spec/00_scope.md R4 to R7).

The constants of R4 are fixed at compile time and stand as literals in the widths below: NBYTES = 35, PACKED_BITS = 280,
NDATA = 245, WIDTH = 239, PAD = 6, SHIFT_BITS = 35, SHIFT_MOD = 2^35, ROT_MOD = 245; so do those of R5: NV = 8,
CMD_BITS = 16, VIN_BITS = 32, SIN_BITS = 35. -/

namespace Sys2Proof

/-- A byte of a packed value (R7). -/
abbrev Byte := BitVec 8

/-- A packed value as its 280-bit register image, byte 0 in the most significant place (R11, R22). -/
abbrev Image := BitVec 280

/-- The 245-bit stored-data sequence `D[0..244]`; `D[j]` is bit `244 - j`, so the word is `num(D)` (R7). -/
abbrev StoredData := BitVec 245

/-- The canonical bit sequence `C[0..238]`; `C[k]` is bit `k`, so the word is `val(C)` (R7). -/
abbrev CanonicalBits := BitVec 239

/-- A shift amount, an unsigned value in `[0, 2^35 - 1]` (R9). -/
abbrev ShiftAmount := BitVec 35

/-- A register index field of the command word; all eight values select a register (R30). -/
abbrev Reg := BitVec 3

/-- A command word (R30). -/
abbrev CommandWord := BitVec 16

end Sys2Proof
end

