-- ==== Sys2Proof/Syntax.lean ====
section
/-! DEFINITION. The commands: one constructor per row of spec/opcode_table.json (spec/30_encoding.md R33).
Register fields come in the order rd, ra, rb, only those the format uses (R31, R35). The port operands travel beside the word (R32) and
are no part of the command. -/

namespace Sys2Proof

/-- The nineteen commands of R33. -/
inductive Instr where
  /-- LDV `Vd` (R50) -/
  | ldv (rd : Reg)
  /-- RDV `Va` (R51) -/
  | rdv (ra : Reg)
  /-- GETSHIFT `Va` (R52) -/
  | getshift (ra : Reg)
  /-- GETSHIFT32 `Va` (R53) -/
  | getshift32 (ra : Reg)
  /-- SETSHIFT `Vd, Va` (R54) -/
  | setshift (rd ra : Reg)
  /-- DECODE `Va` (R55) -/
  | decode (ra : Reg)
  /-- ENCODE `Vd` (R56) -/
  | encode (rd : Reg)
  /-- FROMINT `Vd` (R92) -/
  | fromint (rd : Reg)
  /-- SHL `Vd, Va` (R93) -/
  | shl (rd ra : Reg)
  /-- SHR `Vd, Va` (R94) -/
  | shr (rd ra : Reg)
  /-- ADD `Vd, Va, Vb` (R73) -/
  | add (rd ra rb : Reg)
  /-- SUB `Vd, Va, Vb` (R74) -/
  | sub (rd ra rb : Reg)
  /-- MUL `Vd, Va, Vb` (R82) -/
  | mul (rd ra rb : Reg)
  /-- DIV `Vd, Va, Vb` (R87) -/
  | div (rd ra rb : Reg)
  /-- ISZERO `Va` (R64) -/
  | iszero (ra : Reg)
  /-- EQ `Va, Vb` (R65) -/
  | eq (ra rb : Reg)
  /-- NE `Va, Vb` (R66) -/
  | ne (ra rb : Reg)
  /-- LT `Va, Vb` (R67) -/
  | lt (ra rb : Reg)
  /-- GT `Va, Vb` (R68) -/
  | gt (ra rb : Reg)
deriving DecidableEq, Repr

end Sys2Proof
end

