-- ==== Sys2Proof/WellFormed.lean ====
section
/-! DEFINITION. Which command words are legal: the rows of spec/30_encoding.md R33 under the masks of R31 (R34).
Every TERM of `Instr` is well-formed by its type (a register index has three bits and all eight values are valid, R30), so what can be
ill-formed here is a word; `legalWord` is the check. It is written from the masks alone; `decode` reads the fields. -/

namespace Sys2Proof

/-- The five format classes (R31). -/
inductive Format where
  /-- uses `rd`, `ra`, `rb` -/
  | RRR
  /-- uses `rd`, `ra` -/
  | RR
  /-- uses `rd` -/
  | RD
  /-- uses `ra` -/
  | RA
  /-- uses `ra`, `rb` -/
  | RAB
deriving DecidableEq, Repr

/-- The mask of a format: the opcode bits and every bit that must be zero (R31). -/
def Format.mask : Format → CommandWord
  | .RRR => 0xF803#16
  | .RR  => 0xF81F#16
  | .RD  => 0xF8FF#16
  | .RA  => 0xFF1F#16
  | .RAB => 0xFF03#16

/-- One row of the opcode map (R33). -/
structure Row where
  /-- the five opcode bits -/
  op : BitVec 5
  /-- the format class -/
  format : Format
deriving DecidableEq, Repr

/-- `match = op << 11` (R31). -/
def Row.pattern (r : Row) : CommandWord := r.op ++ 0#11

/-- A word selects a row when `(w AND mask) = match` (R31). -/
def Row.selects (r : Row) (w : CommandWord) : Bool := w &&& r.format.mask == r.pattern

/-- The row of each command (R33). -/
def Instr.row : Instr → Row
  | .ldv ..        => ⟨0b00001#5, .RD⟩
  | .rdv ..        => ⟨0b00010#5, .RA⟩
  | .getshift ..   => ⟨0b00011#5, .RA⟩
  | .getshift32 .. => ⟨0b00100#5, .RA⟩
  | .setshift ..   => ⟨0b00101#5, .RR⟩
  | .decode ..     => ⟨0b00110#5, .RA⟩
  | .encode ..     => ⟨0b00111#5, .RD⟩
  | .fromint ..    => ⟨0b01000#5, .RD⟩
  | .shl ..        => ⟨0b01001#5, .RR⟩
  | .shr ..        => ⟨0b01010#5, .RR⟩
  | .add ..        => ⟨0b10000#5, .RRR⟩
  | .sub ..        => ⟨0b10001#5, .RRR⟩
  | .mul ..        => ⟨0b10010#5, .RRR⟩
  | .div ..        => ⟨0b10011#5, .RRR⟩
  | .iszero ..     => ⟨0b11000#5, .RA⟩
  | .eq ..         => ⟨0b11001#5, .RAB⟩
  | .ne ..         => ⟨0b11010#5, .RAB⟩
  | .lt ..         => ⟨0b11011#5, .RAB⟩
  | .gt ..         => ⟨0b11100#5, .RAB⟩

/-- The whole opcode map: the nineteen rows of R33, in its order. -/
def opcodeMap : List Row :=
  [ ⟨0b00001#5, .RD⟩, ⟨0b00010#5, .RA⟩, ⟨0b00011#5, .RA⟩, ⟨0b00100#5, .RA⟩, ⟨0b00101#5, .RR⟩,
    ⟨0b00110#5, .RA⟩, ⟨0b00111#5, .RD⟩, ⟨0b01000#5, .RD⟩, ⟨0b01001#5, .RR⟩, ⟨0b01010#5, .RR⟩,
    ⟨0b10000#5, .RRR⟩, ⟨0b10001#5, .RRR⟩, ⟨0b10010#5, .RRR⟩, ⟨0b10011#5, .RRR⟩, ⟨0b11000#5, .RA⟩,
    ⟨0b11001#5, .RAB⟩, ⟨0b11010#5, .RAB⟩, ⟨0b11011#5, .RAB⟩, ⟨0b11100#5, .RAB⟩ ]

/-- A command word is legal when it matches one row under that row's mask; every other word is illegal (R34). -/
def legalWord (w : CommandWord) : Bool := opcodeMap.any (·.selects w)

end Sys2Proof
end

