-- ==== Sys2Proof/Decode.lean ====
section
/-! DEFINITION. The command decoder, total on every 16-bit word, and the encoder (spec/30_encoding.md R30, R31, R33, R34). -/

namespace Sys2Proof

/-- Why a word is illegal: the three cases of R34. The block itself reports all of them as IllegalCommand and records no value
(spec/60_exceptions.md R101), so the case is the model's own diagnostic and nothing in the machine depends on it. -/
inductive IllegalReason where
  /-- (a) a reserved opcode; raised by `decode`, which looks at `op` first; safe: every case has the same effect -/
  | reservedOpcode
  /-- (b) `z` is not `00`; raised by `decode` after the opcode; safe, as above -/
  | nonzeroZ
  /-- (c) a register field that the format does not use is not `000`; raised by `decode` last; safe, as above -/
  | nonzeroUnusedField
deriving DecidableEq, Repr

/-- `cmd[15:11]` (R30). -/
def opField (w : CommandWord) : BitVec 5 := w.extractLsb' 11 5

/-- `cmd[10:8]` (R30). -/
def rdField (w : CommandWord) : Reg := w.extractLsb' 8 3

/-- `cmd[7:5]` (R30). -/
def raField (w : CommandWord) : Reg := w.extractLsb' 5 3

/-- `cmd[4:2]` (R30). -/
def rbField (w : CommandWord) : Reg := w.extractLsb' 2 3

/-- `cmd[1:0]` (R30). -/
def zField (w : CommandWord) : BitVec 2 := w.extractLsb' 0 2

/-- The command, unless a field its format does not use is not zero (R31, R34 (c)). -/
def unusedZero (isZero : Bool) (i : Instr) : Except IllegalReason Instr :=
  if isZero then .ok i else .error .nonzeroUnusedField

/-- Format RRR: no unused field (R31). -/
def formatRRR (w : CommandWord) (c : Reg → Reg → Reg → Instr) : Except IllegalReason Instr :=
  .ok (c (rdField w) (raField w) (rbField w))

/-- Format RR: `rb` must be zero (R31). -/
def formatRR (w : CommandWord) (c : Reg → Reg → Instr) : Except IllegalReason Instr :=
  unusedZero (rbField w == 0) (c (rdField w) (raField w))

/-- Format RD: `ra` and `rb` must be zero (R31). -/
def formatRD (w : CommandWord) (c : Reg → Instr) : Except IllegalReason Instr :=
  unusedZero (raField w == 0 && rbField w == 0) (c (rdField w))

/-- Format RA: `rd` and `rb` must be zero (R31). -/
def formatRA (w : CommandWord) (c : Reg → Instr) : Except IllegalReason Instr :=
  unusedZero (rdField w == 0 && rbField w == 0) (c (raField w))

/-- Format RAB: `rd` must be zero (R31). -/
def formatRAB (w : CommandWord) (c : Reg → Reg → Instr) : Except IllegalReason Instr :=
  unusedZero (rdField w == 0) (c (raField w) (rbField w))

/-- The opcode map read by opcode (R33): what the fields of a word with this opcode stand for, `z` apart. -/
def decodeFields (w : CommandWord) : Except IllegalReason Instr :=
  match opField w with
  | 0b00001#5 => formatRD w .ldv
  | 0b00010#5 => formatRA w .rdv
  | 0b00011#5 => formatRA w .getshift
  | 0b00100#5 => formatRA w .getshift32
  | 0b00101#5 => formatRR w .setshift
  | 0b00110#5 => formatRA w .decode
  | 0b00111#5 => formatRD w .encode
  | 0b01000#5 => formatRD w .fromint
  | 0b01001#5 => formatRR w .shl
  | 0b01010#5 => formatRR w .shr
  | 0b10000#5 => formatRRR w .add
  | 0b10001#5 => formatRRR w .sub
  | 0b10010#5 => formatRRR w .mul
  | 0b10011#5 => formatRRR w .div
  | 0b11000#5 => formatRA w .iszero
  | 0b11001#5 => formatRAB w .eq
  | 0b11010#5 => formatRAB w .ne
  | 0b11011#5 => formatRAB w .lt
  | 0b11100#5 => formatRAB w .gt
  | _ => .error .reservedOpcode

/-- The command of a word, or why the word is illegal (R33, R34). Where several reasons hold the order opcode, `z`, unused field is the
model's own; DESIGN CHOICE, notes/assumptions/12.md, safe. -/
def decode (w : CommandWord) : Except IllegalReason Instr :=
  match decodeFields w with
  | .error .reservedOpcode => .error .reservedOpcode
  | r => if zField w == 0 then r else .error .nonzeroZ

/-- The pattern `ooooodddaaabbbzz` with `z = 00` (R30). -/
def commandWord (op : BitVec 5) (rd ra rb : Reg) : CommandWord := op ++ rd ++ ra ++ rb ++ 0#2

/-- The word of a command: its opcode and its register fields, the unused ones zero (R30, R31, R33). -/
def encode : Instr → CommandWord
  | .ldv rd         => commandWord 0b00001#5 rd 0 0
  | .rdv ra         => commandWord 0b00010#5 0 ra 0
  | .getshift ra    => commandWord 0b00011#5 0 ra 0
  | .getshift32 ra  => commandWord 0b00100#5 0 ra 0
  | .setshift rd ra => commandWord 0b00101#5 rd ra 0
  | .decode ra      => commandWord 0b00110#5 0 ra 0
  | .encode rd      => commandWord 0b00111#5 rd 0 0
  | .fromint rd     => commandWord 0b01000#5 rd 0 0
  | .shl rd ra      => commandWord 0b01001#5 rd ra 0
  | .shr rd ra      => commandWord 0b01010#5 rd ra 0
  | .add rd ra rb   => commandWord 0b10000#5 rd ra rb
  | .sub rd ra rb   => commandWord 0b10001#5 rd ra rb
  | .mul rd ra rb   => commandWord 0b10010#5 rd ra rb
  | .div rd ra rb   => commandWord 0b10011#5 rd ra rb
  | .iszero ra      => commandWord 0b11000#5 0 ra 0
  | .eq ra rb       => commandWord 0b11001#5 0 ra rb
  | .ne ra rb       => commandWord 0b11010#5 0 ra rb
  | .lt ra rb       => commandWord 0b11011#5 0 ra rb
  | .gt ra rb       => commandWord 0b11100#5 0 ra rb

/-- The command the decoder reads from a row of spec/opcode_table.json whose bits are `w`. Every word is 16 bits (R30): bits of `w` at
or above `nbits` are dropped, bits the row does not give are zero. -/
def decodeTableWord (nbits w : Nat) : Option Instr :=
  match decode (BitVec.ofNat 16 (w % 2 ^ nbits)) with
  | .ok i => some i
  | .error _ => none

end Sys2Proof
end

