-- ==== Sys2Proof/Machine/BitSeq.lean ====
section
/-! DEFINITION. The bit-sequence functions on canonical bits, ignorant of shift and packing: comparator (spec/41_compare.md R60 to R62),
adder and subtractor (spec/42_addsub.md R71, R72), multiplier (spec/43_mul.md R80), divider (spec/44_div.md R85). Each loop runs as its rule
writes it; that it is arithmetic modulo 2^239 is stated, not built in. -/

namespace Sys2Proof.Machine

/-- `bs_isZero`: every one of the 239 bits is 0 (R60). -/
def bsIsZero (a : CanonicalBits) : Bool := (List.range 239).all fun k => !a.getLsbD k

/-- `bs_equal`: the two sequences agree at all 239 positions (R61). -/
def bsEqual (a b : CanonicalBits) : Bool := (List.range 239).all fun k => a.getLsbD k == b.getLsbD k

/-- The scan of `bs_lessThan` over bits `n - 1` down to 0: the first differing bit decides (R62). -/
def lessThanScan (a b : CanonicalBits) : Nat → Bool
  | 0 => false
  | k + 1 => if a.getLsbD k != b.getLsbD k then b.getLsbD k else lessThanScan a b k

/-- `bs_lessThan`: from the most significant bit down (R62). -/
def bsLessThan (a b : CanonicalBits) : Bool := lessThanScan a b 239

/-- `majority(a, b, c)`, the carry out of one bit (R71). -/
def majority (a b c : Bool) : Bool := (a && b) || (a && c) || (b && c)

/-- The ripple adder after bits 0 .. n-1: the sum bits so far and the carry into bit `n` (R71). -/
def addRipple (a b : CanonicalBits) : (n : Nat) → BitVec n × Bool
  | 0 => (0#0, false)
  | n + 1 =>
    let p := addRipple a b n
    (BitVec.cons (a.getLsbD n ^^ b.getLsbD n ^^ p.2) p.1, majority (a.getLsbD n) (b.getLsbD n) p.2)

/-- `bs_add`: ripple-carry from bit 0 upward; the carry out of bit 238 is discarded (R71). -/
def bsAdd (a b : CanonicalBits) : CanonicalBits := (addRipple a b 239).1

/-- The borrow out of one bit: `a < b + w` (R72). -/
def borrowOut (a b w : Bool) : Bool := decide (a.toNat < b.toNat + w.toNat)

/-- The ripple subtractor after bits 0 .. n-1: the difference bits so far and the borrow into bit `n` (R72). -/
def subRipple (a b : CanonicalBits) : (n : Nat) → BitVec n × Bool
  | 0 => (0#0, false)
  | n + 1 =>
    let p := subRipple a b n
    (BitVec.cons (a.getLsbD n ^^ b.getLsbD n ^^ p.2) p.1, borrowOut (a.getLsbD n) (b.getLsbD n) p.2)

/-- `bs_sub`: ripple-borrow from bit 0 upward; the borrow out of bit 238 is discarded (R72). -/
def bsSub (a b : CanonicalBits) : CanonicalBits := (subRipple a b 239).1

/-- The accumulator of `bs_mul` after bits 0 .. i-1 of the right operand: each set bit adds the left operand shifted left, truncated to
239 bits (R80). -/
def mulAccumulate (a b : CanonicalBits) : Nat → CanonicalBits
  | 0 => 0
  | i + 1 =>
    let acc := mulAccumulate a b i
    if b.getLsbD i then bsAdd acc (a <<< i) else acc

/-- `bs_mul`: schoolbook shift-and-add (R80). -/
def bsMul (a b : CanonicalBits) : CanonicalBits := mulAccumulate a b 239

/-- The restoring divider after `m` iterations: the top `m` quotient bits and the remainder, which is a number without a width as in
R85's pseudocode (R6; a 239-bit register holds it, R86; DEDUCED,
notes/assumptions/13.md). -/
def divLoop (a b : CanonicalBits) : (m : Nat) → BitVec m × Nat
  | 0 => (0#0, 0)
  | m + 1 =>
    let p := divLoop a b m
    let trial := 2 * p.2 + (a.getLsbD (238 - m)).toNat
    if b.toNat ≤ trial then (p.1.concat true, trial - b.toNat) else (p.1.concat false, trial)

/-- `bs_div`: the quotient, or `none` for DivisionByZero, which is checked before the loop (R85). The remainder is dropped. -/
def bsDiv (a b : CanonicalBits) : Option CanonicalBits :=
  if bsIsZero b then none else some (divLoop a b 239).1

end Sys2Proof.Machine
end

