-- ==== Sys2Proof/Machine/Codec.lean ====
section
/-! DEFINITION. The bit-plane codec (spec/40_codec.md R40 to R47), each function as its rule writes it, over the numberings of
spec/00_scope.md R7: stored sequences count from the most significant end, canonical bits from the least significant end. -/

namespace Sys2Proof.Machine

/-- The word of `n` bits whose bit `k`, counted from the least significant end, is `f k` (R6, R7). -/
def seqLsb : (n : Nat) → (Nat → Bool) → BitVec n
  | 0, _ => 0#0
  | n + 1, f => BitVec.cons (f n) (seqLsb n f)

/-- The word of `n` bits whose element `j`, counted from the most significant end, is `f j` (R7). `BitVec.getMsbD` reads an element. -/
def seqMsb (n : Nat) (f : Nat → Bool) : BitVec n := seqLsb n fun k => f (n - 1 - k)

/-- Byte `i` of an image, byte 0 the most significant: `bytes(x).byte[i] = x[279 - 8*i : 272 - 8*i]` (spec/20_memory.md R22). -/
def byteOf (x : Image) (i : Nat) : Byte := x.extractLsb' (272 - 8 * i) 8

/-- The image of 35 bytes, byte 0 in `x[279:272]` (R22). -/
def packed (bytes : Nat → Byte) : Image := seqLsb 280 fun n => (bytes (34 - n / 8)).getLsbD (n % 8)

/-- `getShift`: `byte[i].bit7` for `i` in 0..34, MSB-first (R40). -/
def getShift (x : Image) : ShiftAmount := seqMsb 35 fun i => (byteOf x i).getLsbD 7

/-- `setShift`: bit `34 - i` of `s` goes to bit 7 of byte `i`; bits 6..0 of every byte stay (R41). -/
def setShift (x : Image) (s : ShiftAmount) : Image :=
  packed fun i => BitVec.cons (s.getLsbD (34 - i)) ((byteOf x i).extractLsb' 0 7)

/-- `unpackData`: `D[7*i + m] = byte[i].bit[6 - m]` (R42). -/
def unpackData (x : Image) : StoredData := seqMsb 245 fun j => (byteOf x (j / 7)).getLsbD (6 - j % 7)

/-- `packData`: `byte[i].bit[6 - m] <- L[7*i + m]`, every bit 7 zero (R43). -/
def packData (l : StoredData) : Image :=
  packed fun i => BitVec.cons false (seqMsb 7 fun m => l.getMsbD (7 * i + m))

/-- `rotr245`: `R[j] = D[(j - r) mod 245]` for `r` in 0..244 (R44). The direction is the spec's own reading (D14): UNVERIFIED,
notes/assumptions/6.md. -/
def rotr245 (d : StoredData) (r : Nat) : StoredData := seqMsb 245 fun j => d.getMsbD ((j + (245 - r)) % 245)

/-- `rotl245`: `L[j] <- A[(j + r) mod 245]` for `r` in 0..244 (R45). -/
def rotl245 (a : StoredData) (r : Nat) : StoredData := seqMsb 245 fun j => a.getMsbD ((j + r) % 245)

/-- The rotation amount `r = shift mod 245` (R9). -/
def rotationAmount (s : ShiftAmount) : Nat := s.toNat % 245

/-- The stored data after de-rotation: `R` of R46. -/
def derotated (x : Image) : StoredData := rotr245 (unpackData x) (rotationAmount (getShift x))

/-- Positions 6..244 of the de-rotated sequence, reversed: `C[k] <- R[244 - k]` for `k` in 0..238 (R46). -/
def takeCanonical (r : StoredData) : CanonicalBits := seqLsb 239 fun k => r.getMsbD (244 - k)

/-- Positions 0..5 of the de-rotated sequence (R46). -/
def takePadding (r : StoredData) : BitVec 6 := seqMsb 6 fun j => r.getMsbD j

/-- The canonical bits of `decode` (R46). -/
def canonicalOf (x : Image) : CanonicalBits := takeCanonical (derotated x)

/-- The padding that `decode` discards: `R[0..5]` (R46). -/
def paddingOf (x : Image) : BitVec 6 := takePadding (derotated x)

/-- `decode`: the canonical bits and the full 35-bit shift (R46). -/
def decodeImage (x : Image) : CanonicalBits × ShiftAmount := (canonicalOf x, getShift x)

/-- The array `A` of `encode`: six zero padding bits, then `A[244 - k] <- C[k]` (R47). -/
def padded (c : CanonicalBits) : StoredData := seqMsb 245 fun j => if j < 6 then false else c.getLsbD (244 - j)

/-- `encode`: pad, rotate left by `s mod 245`, pack, set the shift bits (R47). `s` is a 35-bit word, so 's mod 2^35' is done. -/
def encodeImage (c : CanonicalBits) (s : ShiftAmount) : Image :=
  setShift (packData (rotl245 (padded c) (rotationAmount s))) s

end Sys2Proof.Machine
end

