-- ==== Sys2Proof/Config.lean ====
section
/-! DEFINITION. What the spec leaves free of this hardware: the contents of the value registers after a reset. -/

namespace Sys2Proof

/-- `Config.resetImage n r` is the pattern that `V[r]` holds right after the `n`-th reset counted from `State.reset` (which is
number 0): 'unspecified: each holds some 280-bit pattern, not known to the host, not required to be the same after two
resets' (spec/70_reset_and_hazards.md R110); 'one free 280-bit draw per register at reset, stable until written'
(spec/93_implementation_defined.md U1). A free value: no body, so no proof can see it.
DESIGN CHOICE, notes/assumptions/1.md, unsafe. -/
opaque Config.resetImage : Nat → Reg → Image

end Sys2Proof
end

