-- ==== Sys2Proof/Machine/State.lean ====
section
/-! DEFINITION. The state of BIGINT239-CORE (spec/10_state.md), with the model's own fields that carry the host's side of a step; its reset;
the reasons a step can stop. -/

namespace Sys2Proof.Machine

/-- `rsp.status` (spec/10_state.md R15): three values, 'the value 3 is never produced' (spec/93_implementation_defined.md U7). -/
inductive Status where
  /-- the command completed -/
  | ok
  /-- DivisionByZero was raised (R100) -/
  | divZero
  /-- IllegalCommand was raised (R101) -/
  | illegal
deriving DecidableEq, Repr

/-- The inputs of one transaction, all sampled together when the command is accepted (R15). -/
structure Transaction where
  /-- the command word -/
  cmd : CommandWord
  /-- native unsigned integer operand -/
  vin : BitVec 32
  /-- shift operand -/
  sin : ShiftAmount
  /-- data operand: a packed value, or canonical bits in `din[238:0]` -/
  din : BitVec 280
deriving DecidableEq, Repr

/-- The response outputs (R15). -/
structure Response where
  /-- the status code -/
  status : Status
  /-- packed value for RDV, canonical bits for DECODE -/
  dout : BitVec 280
  /-- shift amount for GETSHIFT, GETSHIFT32, DECODE -/
  sout : ShiftAmount
  /-- truth value for ISZERO, EQ, NE, LT, GT -/
  tout : Bool
deriving DecidableEq, Repr

/-- The response with status OK and every data field 0 (R15, R17): also what the response outputs show after reset (R110). Fields a
command does not produce are 0: the spec's choice D8, UNVERIFIED, notes/assumptions/15.md. -/
def Response.zero : Response := ⟨.ok, 0, 0, false⟩

/-- What the host does next: presents a transaction, or asserts and releases the reset input (R10, R110). -/
inductive HostEvent where
  /-- one transaction -/
  | command (t : Transaction)
  /-- one reset -/
  | reset
deriving DecidableEq, Repr

/-- The machine. `v`, `fsr` and `rsp` are the spec's; `txn`, `host` and `resets` are the MODEL's own
(notes/assumptions/1.md, 2.md, 3.md). -/
structure State where
  /-- the value registers `V[0] .. V[7]` (R11) -/
  v : Vector Image 8
  /-- the fault status register: bit 0 is `DZ`, bit 1 is `IL` (R12) -/
  fsr : BitVec 2
  /-- the response outputs: the response of the last completed command (R15); how long they hold is DESIGN CHOICE,
  notes/assumptions/4.md -/
  rsp : Response
  /-- the transaction being executed, as sampled (R15, R114); the model's own -/
  txn : Transaction
  /-- what the host will do, first event first (R13: 'a program is a finite list of transactions' held by the host); the model's own -/
  host : List HostEvent
  /-- how many resets happened since `State.reset`: selects the free draws of `Config.resetImage`; the model's own -/
  resets : Nat
deriving DecidableEq, Repr

/-- The faults that stop the machine: there are none. The step is 'total on every state and every transaction' (R10, R17), and the two
exceptions of spec/60_exceptions.md are next states (DEDUCED, notes/assumptions/17.md). Nobody raises one; safe. -/
inductive Fault : Type
deriving DecidableEq, Repr

/-- The refusals: only the one for a command that has no meaning yet. -/
inductive Refusal where
  /-- raised by an arm of `exec` whose command has no meaning yet; no arm is left, so nobody raises it; safe -/
  | notModelled (mnemonic : String)
deriving DecidableEq, Repr

/-- The contents of all value registers after reset number `n`: free draws (R110, U1). -/
def resetRegisters (n : Nat) : Vector Image 8 := Vector.ofFn fun i => Config.resetImage n (BitVec.ofNat 3 i.val)

/-- The machine right after reset (R18, R110): FSR is 0, the response outputs are 0, no command is in progress, every register holds an
unspecified pattern. The host presents nothing yet (how a
program comes to run: notes/assumptions/14.md). -/
def State.reset : State :=
  { v := resetRegisters 0
    fsr := 0
    rsp := Response.zero
    txn := ⟨0, 0, 0, 0⟩
    host := []
    resets := 0 }

end Sys2Proof.Machine
end

