-- ==== Sys2Proof/Machine/Flags.lean ====
section
/-! DEFINITION. The fault status register and the status codes. The block has no flags and no condition codes: no carry, borrow or
overflow is kept (spec/10_state.md R14), and comparison results are in `rsp.tout` only. -/

namespace Sys2Proof.Machine

/-- `FSR.DZ`, bit 0 (R12). -/
def fsrDZ (fsr : BitVec 2) : Bool := fsr.getLsbD 0

/-- `FSR.IL`, bit 1 (R12). -/
def fsrIL (fsr : BitVec 2) : Bool := fsr.getLsbD 1

/-- The 2-bit code of `rsp.status` (R15, R100, R101). -/
def statusCode : Status → BitVec 2
  | .ok => 0
  | .divZero => 1
  | .illegal => 2

/-- The two exceptions of spec/60_exceptions.md. -/
inductive Cause where
  /-- R100 -/
  | divisionByZero
  /-- R101 -/
  | illegalCommand
deriving DecidableEq, Repr

/-- The status a raise reports (R100, R101). -/
def causeStatus : Cause → Status
  | .divisionByZero => .divZero
  | .illegalCommand => .illegal

/-- The sticky bit a raise sets: `DZ` for DivisionByZero, `IL` for IllegalCommand (R12, R100, R101). -/
def causeBit : Cause → BitVec 2
  | .divisionByZero => 0b01#2
  | .illegalCommand => 0b10#2

/-- Setting a sticky bit leaves the other as it was (R12, R102). -/
def setSticky (fsr : BitVec 2) (c : Cause) : BitVec 2 := fsr ||| causeBit c

end Sys2Proof.Machine
end

