-- ==== Sys2Proof/Machine/Ops.lean ====
section
/-! DEFINITION. The named operations over the state: register read and write, completing a command with a response, TAKING AN EXCEPTION,
the reset event, accepting a transaction. The block has no memory (spec/20_memory.md R20), so there is no memory operation; it has no
return from an exception (spec/60_exceptions.md R105), so there is none beside `raise`. -/

namespace Sys2Proof.Machine

/-- `V[r]` (spec/00_scope.md R8): all eight are ordinary registers (spec/10_state.md R11). -/
def readV (s : State) (r : Reg) : Image := s.v[r.toNat]'r.isLt

/-- `V[r] <- x` (R8, R11). -/
def writeV (s : State) (r : Reg) (x : Image) : State := { s with v := s.v.set r.toNat x r.isLt }

/-- The command completes with the response `rsp`; fields it does not produce are 0 in it (R15). -/
def respond (s : State) (rsp : Response) : State := { s with rsp := rsp }

/-- A command that writes a register and produces no response field: `V[rd] <- x`, status OK, all data fields 0 (R15, R17). -/
def completeWrite (s : State) (rd : Reg) (x : Image) : State := respond (writeV s rd x) Response.zero

/-- A command that returns a data word: `dout`, status OK, the other fields 0 (R15). -/
def completeDout (s : State) (x : BitVec 280) : State := respond s { Response.zero with dout := x }

/-- A command that returns a shift amount: `sout`, status OK, the other fields 0 (R15). -/
def completeSout (s : State) (x : ShiftAmount) : State := respond s { Response.zero with sout := x }

/-- A command that returns a truth value: `tout`, status OK, the other fields 0 (R15). -/
def completeTout (s : State) (b : Bool) : State := respond s { Response.zero with tout := b }

/-- TAKING AN EXCEPTION (spec/60_exceptions.md R102): no register is written, the cause's sticky bit is set, the command completes with
the cause's status and all data fields 0, and the block is ready for the next command. No pc, status or mode is saved: there is none. -/
def raise (s : State) (c : Cause) : State :=
  { s with fsr := setSticky s.fsr c, rsp := { Response.zero with status := causeStatus c } }

/-- The reset event (spec/70_reset_and_hazards.md R110): FSR and the response outputs are 0, every register holds a fresh unspecified
pattern. A command cut off by it is one the model never starts (U2; DESIGN CHOICE, notes/assumptions/5.md). -/
def resetBlock (s : State) : State :=
  { s with v := resetRegisters (s.resets + 1), fsr := 0, rsp := Response.zero, resets := s.resets + 1 }

/-- The host's stream moves on to `rest` (R13). -/
def advanceHost (s : State) (rest : List HostEvent) : State := { s with host := rest }

/-- The block accepts a transaction: all inputs are sampled together (R15, R114). -/
def accept (s : State) (t : Transaction) (rest : List HostEvent) : State := { s with txn := t, host := rest }

/-- The stream in which the word `w` is the next one presented: a command that waits keeps its port operands, and where none waits the ports
are as last sampled. -/
def presentWord (s : State) (w : CommandWord) : List HostEvent :=
  match s.host with
  | .command t :: rest => .command { t with cmd := w } :: rest
  | events => .command { s.txn with cmd := w } :: events

end Sys2Proof.Machine
end

