-- ==== Sys2Proof/Machine/Operands.lean ====
section
/-! DEFINITION. The operand forms: registers by the fields of the word, the three ports (spec/30_encoding.md R32, spec/20_memory.md R23), the
common data path of the two-operand commands (spec/42_addsub.md R70), the shift-combination rules (spec/45_tag_and_construct.md). -/

namespace Sys2Proof.Machine

/-- The canonical bits of `decode(bytes(V[r]))` (R46, R70). -/
def bitsOfReg (s : State) (r : Reg) : CanonicalBits := (decodeImage (readV s r)).1

/-- The shift of `decode(bytes(V[r]))` (R46, R70). -/
def shiftOfReg (s : State) (r : Reg) : ShiftAmount := (decodeImage (readV s r)).2

/-- `sin`, the shift operand at its full width (R32). -/
def portSin (s : State) : ShiftAmount := s.txn.sin

/-- `din` as a packed value (R32). -/
def portImage (s : State) : Image := s.txn.din

/-- `din[238:0]` as canonical bits; `din[279:239]` is ignored (R23, R56). -/
def portCanonical (s : State) : CanonicalBits := s.txn.din.setWidth 239

/-- `bitsOfU32`: the little-endian bits of a 32-bit value zero-extended to 239 bits (R90). -/
def bitsOfU32 (v : BitVec 32) : CanonicalBits := v.setWidth 239

/-- `vin` as canonical bits (R32, R90). -/
def portVin (s : State) : CanonicalBits := bitsOfU32 s.txn.vin

/-- Canonical bits on `dout`: bit `k` is `C[k]`, bits 279..239 are 0 (R23). -/
def canonicalOnPort (c : CanonicalBits) : BitVec 280 := c.setWidth 280

/-- `zext_35(s[31:0])` (R53). -/
def low32 (s : ShiftAmount) : ShiftAmount := (s.setWidth 32).setWidth 35

/-- The shift rule of ADD, MUL and SHL: the sum mod 2^35 (R73, R82, R93). -/
def shiftSum (sa sb : ShiftAmount) : ShiftAmount := sa + sb

/-- The shift rule of SUB and SHR: the difference mod 2^35; it wraps (R74, R94; conflict C3: UNVERIFIED, notes/assumptions/7.md). -/
def shiftDifference (sa sb : ShiftAmount) : ShiftAmount := sa - sb

/-- The shift rule of DIV: `sa - sb` if `sa >= sb`, else 0; it saturates (R87; conflict C4: UNVERIFIED,
notes/assumptions/8.md). -/
def shiftSaturating (sa sb : ShiftAmount) : ShiftAmount := if sb ≤ sa then sa - sb else 0

/-- The common path of ADD, SUB and MUL: decode both operands, compute on the bits, combine the shifts, re-encode (R70). -/
def binop (f : CanonicalBits → CanonicalBits → CanonicalBits) (g : ShiftAmount → ShiftAmount → ShiftAmount)
    (s : State) (ra rb : Reg) : Image :=
  encodeImage (f (bitsOfReg s ra) (bitsOfReg s rb)) (g (shiftOfReg s ra) (shiftOfReg s rb))

/-- The path of SHL and SHR: the same canonical bits, the shift combined with `sin` (R93, R94). -/
def retag (g : ShiftAmount → ShiftAmount → ShiftAmount) (s : State) (ra : Reg) : Image :=
  encodeImage (bitsOfReg s ra) (g (shiftOfReg s ra) (portSin s))

end Sys2Proof.Machine
end

