-- ==== Sys2Proof/Machine/ArithCommands.lean ====
section
/-! DEFINITION. The arithmetic commands: ADD, SUB (spec/42_addsub.md R73, R74), MUL (spec/43_mul.md R82), DIV (spec/44_div.md R87). -/

namespace Sys2Proof.Machine

/-- ADD (R73). -/
def execAdd (rd ra rb : Reg) (s : State) : Host.Outcome State Fault Refusal :=
  .next (completeWrite s rd (binop bsAdd shiftSum s ra rb))

/-- SUB (R74). -/
def execSub (rd ra rb : Reg) (s : State) : Host.Outcome State Fault Refusal :=
  .next (completeWrite s rd (binop bsSub shiftDifference s ra rb))

/-- MUL (R82). -/
def execMul (rd ra rb : Reg) (s : State) : Host.Outcome State Fault Refusal :=
  .next (completeWrite s rd (binop bsMul shiftSum s ra rb))

/-- DIV (R87): raises DivisionByZero when the divisor's canonical bits are all zero, and then writes no register (R100, R102). -/
def execDiv (rd ra rb : Reg) (s : State) : Host.Outcome State Fault Refusal :=
  .next (match bsDiv (bitsOfReg s ra) (bitsOfReg s rb) with
    | none => raise s .divisionByZero
    | some q => completeWrite s rd (encodeImage q (shiftSaturating (shiftOfReg s ra) (shiftOfReg s rb))))

end Sys2Proof.Machine
end

