-- ==== Sys2Proof/Machine/CodecCommands.lean ====
section
/-! DEFINITION. The codec commands (spec/40_codec.md R50 to R56). -/

namespace Sys2Proof.Machine

/-- LDV: `V[rd] <- din` (R50). -/
def execLdv (rd : Reg) (s : State) : Host.Outcome State Fault Refusal :=
  .next (completeWrite s rd (portImage s))

/-- RDV: `rsp.dout <- V[ra]` (R51). -/
def execRdv (ra : Reg) (s : State) : Host.Outcome State Fault Refusal :=
  .next (completeDout s (readV s ra))

/-- GETSHIFT: `rsp.sout <- getShift(V[ra])`, all 35 bits (R52). -/
def execGetshift (ra : Reg) (s : State) : Host.Outcome State Fault Refusal :=
  .next (completeSout s (getShift (readV s ra)))

/-- GETSHIFT32: `rsp.sout <- zext_35(getShift(V[ra])[31:0])` (R53). -/
def execGetshift32 (ra : Reg) (s : State) : Host.Outcome State Fault Refusal :=
  .next (completeSout s (low32 (getShift (readV s ra))))

/-- SETSHIFT: `V[rd] <- setShift(V[ra], sin)` (R54). -/
def execSetshift (rd ra : Reg) (s : State) : Host.Outcome State Fault Refusal :=
  .next (completeWrite s rd (setShift (readV s ra) (portSin s)))

/-- DECODE: the canonical bits on `dout`, the shift on `sout` (R55). -/
def execDecode (ra : Reg) (s : State) : Host.Outcome State Fault Refusal :=
  .next (respond s { Response.zero with dout := canonicalOnPort (bitsOfReg s ra), sout := shiftOfReg s ra })

/-- ENCODE: `V[rd] <- encode(din[238:0], sin)` (R56). -/
def execEncode (rd : Reg) (s : State) : Host.Outcome State Fault Refusal :=
  .next (completeWrite s rd (encodeImage (portCanonical s) (portSin s)))

end Sys2Proof.Machine
end

