-- ==== Sys2Proof/Machine/CompareCommands.lean ====
section
/-! DEFINITION. The comparison commands (spec/41_compare.md R64 to R68): shifts and padding play no part; the result is in `rsp.tout`. -/

namespace Sys2Proof.Machine

/-- ISZERO (R64). -/
def execIszero (ra : Reg) (s : State) : Host.Outcome State Fault Refusal :=
  .next (completeTout s (bsIsZero (bitsOfReg s ra)))

/-- EQ (R65). -/
def execEq (ra rb : Reg) (s : State) : Host.Outcome State Fault Refusal :=
  .next (completeTout s (bsEqual (bitsOfReg s ra) (bitsOfReg s rb)))

/-- NE: `not bs_equal` (R66). -/
def execNe (ra rb : Reg) (s : State) : Host.Outcome State Fault Refusal :=
  .next (completeTout s (!bsEqual (bitsOfReg s ra) (bitsOfReg s rb)))

/-- LT (R67). -/
def execLt (ra rb : Reg) (s : State) : Host.Outcome State Fault Refusal :=
  .next (completeTout s (bsLessThan (bitsOfReg s ra) (bitsOfReg s rb)))

/-- GT: the operands swapped (R68). -/
def execGt (ra rb : Reg) (s : State) : Host.Outcome State Fault Refusal :=
  .next (completeTout s (bsLessThan (bitsOfReg s rb) (bitsOfReg s ra)))

end Sys2Proof.Machine
end

