-- ==== Sys2Proof/Machine/TagCommands.lean ====
section
/-! DEFINITION. Construction and the shift-tag commands (spec/45_tag_and_construct.md R92 to R94). -/

namespace Sys2Proof.Machine

/-- FROMINT: `V[rd] <- encode(bitsOfU32(vin), sin)` (R92). -/
def execFromint (rd : Reg) (s : State) : Host.Outcome State Fault Refusal :=
  .next (completeWrite s rd (encodeImage (portVin s) (portSin s)))

/-- SHL: the same canonical bits with shift `(sa + sin) mod 2^35` (R93). -/
def execShl (rd ra : Reg) (s : State) : Host.Outcome State Fault Refusal :=
  .next (completeWrite s rd (retag shiftSum s ra))

/-- SHR: the same canonical bits with shift `(sa - sin) mod 2^35` (R94). -/
def execShr (rd ra : Reg) (s : State) : Host.Outcome State Fault Refusal :=
  .next (completeWrite s rd (retag shiftDifference s ra))

end Sys2Proof.Machine
end

