-- ==== Sys2Proof/Machine/Dispatch.lean ====
section
/-! DEFINITION. One arm per command (spec/30_encoding.md R33). -/

namespace Sys2Proof.Machine

def exec (i : Instr) (s : State) : Host.Outcome State Fault Refusal :=
  match i with
  | .ldv rd => Sys2Proof.Machine.execLdv rd s
  | .rdv ra => Sys2Proof.Machine.execRdv ra s
  | .getshift ra => Sys2Proof.Machine.execGetshift ra s
  | .getshift32 ra => Sys2Proof.Machine.execGetshift32 ra s
  | .setshift rd ra => Sys2Proof.Machine.execSetshift rd ra s
  | .decode ra => Sys2Proof.Machine.execDecode ra s
  | .encode rd => Sys2Proof.Machine.execEncode rd s
  | .fromint rd => Sys2Proof.Machine.execFromint rd s
  | .shl rd ra => Sys2Proof.Machine.execShl rd ra s
  | .shr rd ra => Sys2Proof.Machine.execShr rd ra s
  | .add rd ra rb => Sys2Proof.Machine.execAdd rd ra rb s
  | .sub rd ra rb => Sys2Proof.Machine.execSub rd ra rb s
  | .mul rd ra rb => Sys2Proof.Machine.execMul rd ra rb s
  | .div rd ra rb => Sys2Proof.Machine.execDiv rd ra rb s
  | .iszero ra => Sys2Proof.Machine.execIszero ra s
  | .eq ra rb => Sys2Proof.Machine.execEq ra rb s
  | .ne ra rb => Sys2Proof.Machine.execNe ra rb s
  | .lt ra rb => Sys2Proof.Machine.execLt ra rb s
  | .gt ra rb => Sys2Proof.Machine.execGt ra rb s

end Sys2Proof.Machine
end

