-- ==== Sys2Proof/Machine/Step.lean ====
section
/-! DEFINITION. One step of the machine (spec/10_state.md R17). -/

namespace Sys2Proof.Machine

/-- One step. The host's next event is a reset (R110), or a transaction: an illegal word raises IllegalCommand, a legal one is executed (R17,
R34). With no event the block is idle and keeps everything (spec/60_exceptions.md R109). DESIGN CHOICE (the stream as a field),
notes/assumptions/2.md. -/
def step (s : State) : Host.Outcome State Fault Refusal :=
  match s.host with
  | [] => .next s
  | .reset :: rest => .next (resetBlock (advanceHost s rest))
  | .command t :: rest =>
    match decode t.cmd with
    | .ok i => exec i (accept s t rest)
    | .error _ => .next (raise (accept s t rest) .illegalCommand)

/-- The state in which the word `w` is the one the host presents next; how a program comes to run: DESIGN CHOICE,
notes/assumptions/14.md. Every command
word is 16 bits (R30): bits of `w` at or above `nbits` are dropped. -/
def State.withFetchWord (s : State) (nbits w : Nat) : State :=
  { s with host := presentWord s (BitVec.ofNat 16 (w % 2 ^ nbits)) }

end Sys2Proof.Machine
end

