-- ==== Sys2Proof/Machine/HostProcedures.lean ====
section
/-! DEFINITION. The two host procedures (spec/45_tag_and_construct.md R96, R97). They run on the host, outside the block
(spec/00_scope.md R3): the first makes a transaction, the second reads a `dout`. -/

namespace Sys2Proof.Machine

/-- One character of the decimal text: a digit `'0'` to `'9'` updates the accumulator modulo `2^ACC_BITS`, any other character is skipped
(R96). The digit set is the spec's, from general knowledge (G1): UNVERIFIED, notes/assumptions/9.md. -/
def decimalStep (accBits acc : Nat) (c : Char) : Nat :=
  if '0' ≤ c ∧ c ≤ '9' then (acc * 10 + (c.toNat - '0'.toNat)) % 2 ^ accBits else acc

/-- The accumulator after the whole text, from 0 (R96; the start value: G1, UNVERIFIED, notes/assumptions/9.md). -/
def decimalValue (accBits : Nat) (text : List Char) : Nat := text.foldl (decimalStep accBits) 0

/-- `fromDecimalString`: the transaction the host issues (R96). FROMINT takes 32 bits, so a wider accumulator goes in by ENCODE. `accBits` is
the open parameter `ACC_BITS` (D19). -/
def fromDecimalString (accBits : Nat) (text : List Char) (shift : BitVec 32) (rd : Reg) : Transaction :=
  let acc := decimalValue accBits text
  if accBits ≤ 32 then
    { cmd := encode (.fromint rd), vin := BitVec.ofNat 32 acc, sin := shift.setWidth 35, din := 0 }
  else
    { cmd := encode (.encode rd), vin := 0, sin := shift.setWidth 35, din := BitVec.ofNat 280 acc }

/-- One byte as eight characters, bit 7 first (R97). -/
def formatByte (b : Byte) : List Char := (List.range 8).map fun k => if b.getMsbD k then '1' else '0'

/-- `format`: the 35 bytes, byte 0 first, one space between two groups and nothing after the last (R97; D20, U13: UNVERIFIED,
notes/assumptions/10.md). -/
def formatImage (x : Image) : List Char :=
  ((List.range 35).map fun i => formatByte (byteOf x i)).intersperse [' '] |>.flatten

end Sys2Proof.Machine
end

