-- ==== Sys2Proof/Safety.lean ====
section
/-! DEFINITION. The terms in which claims speak of the machine: what a register stands for, what a command may change, what a good state is. -/

namespace Sys2Proof.Machine

/-- The canonical value of an image: `val(C)` of `decode` (spec/00_scope.md R7, R9). -/
def valueOf (x : Image) : Nat := (decodeImage x).1.toNat

/-- The shift amount, or tag, of an image as a number (R9). -/
def tagOf (x : Image) : Nat := (decodeImage x).2.toNat

/-- The canonical value in `V[r]`. -/
def regValue (s : State) (r : Reg) : Nat := valueOf (readV s r)

/-- The shift amount in `V[r]`. -/
def regTag (s : State) (r : Reg) : Nat := tagOf (readV s r)

/-- The image of `encode`: 'exactly the packed values whose padding bits after de-rotation are all zero' (R9). -/
def InImage (x : Image) : Prop := paddingOf x = 0

/-- From `s` to `t` exactly one register is written, with `x`, and the response is OK with every data field 0; everything else is as
before. -/
def WritesOnly (s t : State) (rd : Reg) (x : Image) : Prop :=
  readV t rd = x ∧ (∀ r, r ≠ rd → readV t r = readV s r) ∧ t.fsr = s.fsr ∧ t.rsp = ⟨.ok, 0, 0, false⟩ ∧
    t.txn = s.txn ∧ t.host = s.host ∧ t.resets = s.resets

/-- From `s` to `t` only the response outputs change, to `rsp`. -/
def AnswersOnly (s t : State) (rsp : Response) : Prop :=
  (∀ r, readV t r = readV s r) ∧ t.fsr = s.fsr ∧ t.rsp = rsp ∧ t.txn = s.txn ∧ t.host = s.host ∧ t.resets = s.resets

/-- What a raise does (spec/60_exceptions.md R102): no register is written, the sticky bit `bit` is set and the other kept, the response is
`status` with every data field 0; everything else is as before. -/
def RaisesOnly (s t : State) (bit : Nat) (status : Status) : Prop :=
  (∀ r, readV t r = readV s r) ∧ (∀ b, t.fsr.getLsbD b = (s.fsr.getLsbD b || b == bit)) ∧
    t.rsp = ⟨status, 0, 0, false⟩ ∧ t.txn = s.txn ∧ t.host = s.host ∧ t.resets = s.resets

/-- No fault is recorded: the premise that spec/10_state.md R12 keeps FSR for. -/
def noFaultRecorded (s : State) : Prop := s.fsr = 0

/-- The response and FSR agree: a response that is not OK carries no data (R15), and the sticky bit of its cause is set by the time the
response is valid (spec/70_reset_and_hazards.md R114, spec/20_memory.md R27 (d)). -/
def ResponseConsistent (s : State) : Prop :=
  (s.rsp.status ≠ .ok → s.rsp.dout = 0 ∧ s.rsp.sout = 0 ∧ s.rsp.tout = false) ∧
    (s.rsp.status = .divZero → fsrDZ s.fsr = true) ∧ (s.rsp.status = .illegal → fsrIL s.fsr = true)

/-- The two commands that can write an image outside the image of `encode` (R9). -/
def writesRawImage : Instr → Bool
  | .ldv .. | .setshift .. => true
  | .rdv .. | .getshift .. | .getshift32 .. | .decode .. | .encode .. | .fromint .. | .shl .. | .shr .. | .add .. | .sub ..
  | .mul .. | .div .. | .iszero .. | .eq .. | .ne .. | .lt .. | .gt .. => false

/-- Every register is in the image of `encode`, and the host's stream holds no reset and no LDV or SETSHIFT (R9). -/
def CanonicalRun (s : State) : Prop :=
  (∀ r, InImage (readV s r)) ∧
    ∀ e ∈ s.host, ∃ t, e = .command t ∧ ∀ i, decode t.cmd = .ok i → writesRawImage i = false

/-- `vin` is among the ports the command reads (spec/30_encoding.md R33, the column 'ports read'). -/
def readsVin : Instr → Bool
  | .fromint .. => true
  | .ldv .. | .rdv .. | .getshift .. | .getshift32 .. | .setshift .. | .decode .. | .encode .. | .shl .. | .shr .. | .add ..
  | .sub .. | .mul .. | .div .. | .iszero .. | .eq .. | .ne .. | .lt .. | .gt .. => false

/-- `sin` is among the ports the command reads (R33). -/
def readsSin : Instr → Bool
  | .setshift .. | .encode .. | .fromint .. | .shl .. | .shr .. => true
  | .ldv .. | .rdv .. | .getshift .. | .getshift32 .. | .decode .. | .add .. | .sub .. | .mul .. | .div .. | .iszero .. | .eq ..
  | .ne .. | .lt .. | .gt .. => false

/-- `din` is among the ports the command reads (R33). -/
def readsDin : Instr → Bool
  | .ldv .. | .encode .. => true
  | .rdv .. | .getshift .. | .getshift32 .. | .setshift .. | .decode .. | .fromint .. | .shl .. | .shr .. | .add .. | .sub ..
  | .mul .. | .div .. | .iszero .. | .eq .. | .ne .. | .lt .. | .gt .. => false

/-- The transactions `t` and `u` agree on every port that the command reads. -/
def SameReadPorts (i : Instr) (t u : Transaction) : Prop :=
  (readsVin i = true → t.vin = u.vin) ∧ (readsSin i = true → t.sin = u.sin) ∧ (readsDin i = true → t.din = u.din)

end Sys2Proof.Machine
end

