-- ==== Sys2Proof/Certificates/Slice0/Obligations.lean ====
section
/-! DEFINITION. The statements for the provers. Each docstring names the rule of spec/ it formalises. -/

open Sys2Proof Sys2Proof.Machine

/-! ### The words and the step -/

/-- R30, R31, R33: the decoder reads back every command from the word the encoder writes. -/
def Obligations.DecodeReadsBackEveryCommand : Prop :=
  ∀ i : Instr, decode (encode i) = .ok i

/-- R30, R33: a word that decodes is exactly the word of the command it decodes to, so no bit of a legal word is dropped. -/
def Obligations.DecodedWordIsTheEncodedOne : Prop :=
  ∀ (w : CommandWord) (i : Instr), decode w = .ok i → encode i = w

/-- R34: a word decodes exactly when it matches a row of the opcode map under that row's mask. -/
def Obligations.DecodeAcceptsExactlyLegalWords : Prop :=
  ∀ w : CommandWord, (∃ i, decode w = .ok i) ↔ legalWord w = true

/-- R33 to R35: words that the spec writes out stand for the commands it names. -/
def Obligations.SpecWordsDecodeAsNamed : Prop :=
  decode 0x0C00#16 = .ok (.ldv 4) ∧ decode 0x1820#16 = .ok (.getshift 1) ∧ decode 0x2900#16 = .ok (.setshift 1 0) ∧
    decode 0x3D00#16 = .ok (.encode 5) ∧ decode 0x5220#16 = .ok (.shr 2 1) ∧ decode 0x8C0C#16 = .ok (.sub 4 0 3) ∧
    decode 0x9A04#16 = .ok (.div 2 0 1) ∧ decode 0xE020#16 = .ok (.gt 1 0)

/-- R17: when the host presents a word that decodes to `i`, the step samples the transaction, moves the host's stream on and is `exec i`. -/
def Obligations.StepRunsTheDecodedCommand : Prop :=
  ∀ (s : State) (c : Transaction) (rest : List HostEvent) (i : Instr),
    s.host = .command c :: rest → decode c.cmd = .ok i → step s = exec i { s with txn := c, host := rest }

/-- R10, R17: the step is total: whatever the state and the transaction, there is a next state. -/
def Obligations.EveryStepHasANextState : Prop :=
  ∀ s : State, ∃ t, step s = .next t

/-- R101: a word that is not legal under R34 raises IllegalCommand: status code 2, `FSR.IL` set, no register written, no data. -/
def Obligations.IllegalWordRaisesIllegalCommand : Prop :=
  statusCode .illegal = 2 ∧
    ∀ (s : State) (c : Transaction) (rest : List HostEvent), s.host = .command c :: rest → legalWord c.cmd = false →
      ∃ t, step s = .next t ∧ RaisesOnly { s with txn := c, host := rest } t 1 .illegal

/-- R110: a reset event clears FSR and the response outputs and consumes nothing else of the stream. -/
def Obligations.ResetEventClearsFsrAndResponse : Prop :=
  ∀ (s : State) (rest : List HostEvent), s.host = .reset :: rest →
    ∃ t, step s = .next t ∧ t.fsr = 0 ∧ t.rsp = ⟨.ok, 0, 0, false⟩ ∧ t.host = rest

/-- R18, R110: right after reset no fault is recorded and the response outputs are 0. The register contents are the model's choice
(notes/assumptions/1.md) and are not spoken of. -/
def Obligations.ResetStateIsCleared : Prop :=
  noFaultRecorded State.reset ∧ State.reset.rsp = ⟨.ok, 0, 0, false⟩ ∧ statusCode State.reset.rsp.status = 0

/-! ### The codec -/

/-- R41: setShift rewrites bit 7 of every byte, keeps bits 6..0, and the three laws of the rule hold. -/
def Obligations.SetShiftWritesOnlyShiftBits : Prop :=
  ∀ (x : Image) (s : ShiftAmount),
    (∀ i < 35, (byteOf (setShift x s) i).getLsbD 7 = s.getLsbD (34 - i) ∧
      ∀ b < 7, (byteOf (setShift x s) i).getLsbD b = (byteOf x i).getLsbD b) ∧
    getShift (setShift x s) = s ∧ setShift x (getShift x) = x ∧ unpackData (setShift x s) = unpackData x

/-- R42: the stored data as a sequence and as a number. -/
def Obligations.UnpackDataReadsSevenBitsPerByte : Prop :=
  ∀ x : Image,
    (∀ i < 35, ∀ m < 7, (unpackData x).getMsbD (7 * i + m) = (byteOf x i).getLsbD (6 - m)) ∧
    (unpackData x).toNat = ∑ i ∈ Finset.range 35, (byteOf x i).toNat % 128 * 2 ^ (7 * (34 - i))

/-- R43: packData is the exact inverse of unpackData on the data bits, with every shift bit 0. -/
def Obligations.PackDataInvertsUnpackData : Prop :=
  (∀ l : StoredData, unpackData (packData l) = l ∧ ∀ i < 35, (byteOf (packData l) i).getLsbD 7 = false) ∧
    ∀ x : Image, packData (unpackData x) = setShift x 0

/-- R44: right rotation moves element `j` to `(j + r) mod 245`; its form on numbers; rotation by 0. -/
def Obligations.RotateRightMovesEveryBit : Prop :=
  ∀ (d : StoredData) (r : Nat), r < 245 →
    (∀ j < 245, (rotr245 d r).getMsbD ((j + r) % 245) = d.getMsbD j) ∧
    (rotr245 d r).toNat = (d.toNat >>> r) + ((d.toNat % 2 ^ r) <<< (245 - r)) ∧ rotr245 d 0 = d

/-- R45: left rotation, its form on numbers, and the two rotations undo each other. -/
def Obligations.RotateLeftInvertsRotateRight : Prop :=
  ∀ (a : StoredData) (r : Nat), r < 245 →
    (∀ j < 245, (rotl245 a r).getMsbD j = a.getMsbD ((j + r) % 245)) ∧
    (rotl245 a r).toNat = (a.toNat <<< r) % 2 ^ 245 + (a.toNat >>> (245 - r)) ∧ rotl245 a 0 = a ∧
    rotr245 (rotl245 a r) r = a ∧ rotl245 (rotr245 a r) r = a

/-- R48: the round trip; when `encode(decode(x)) = x`; idempotence; the shift bits do not depend on the data nor the data on more of the
shift than its rotation amount. -/
def Obligations.CodecRoundTripLaws : Prop :=
  (∀ (b : CanonicalBits) (s : ShiftAmount), decodeImage (encodeImage b s) = (b, s)) ∧
    (∀ x : Image, encodeImage (decodeImage x).1 (decodeImage x).2 = x ↔ paddingOf x = 0) ∧
    (∀ x : Image, decodeImage (encodeImage (decodeImage x).1 (decodeImage x).2) = decodeImage x) ∧
    (∀ (b : CanonicalBits) (s u : ShiftAmount), s.toNat % 245 = u.toNat % 245 →
      unpackData (encodeImage b s) = unpackData (encodeImage b u))

/-- R47: the shift bits spell `s` and the stored data is the padded magnitude rotated left; encode is injective, and its image is the set
of packed values whose de-rotated padding is zero. -/
def Obligations.EncodeIsInjectiveOntoItsImage : Prop :=
  (∀ (b : CanonicalBits) (s : ShiftAmount), getShift (encodeImage b s) = s ∧
    unpackData (encodeImage b s) = rotl245 (b.setWidth 245) (s.toNat % 245)) ∧
  (∀ (b c : CanonicalBits) (s u : ShiftAmount), encodeImage b s = encodeImage c u → b = c ∧ s = u) ∧
    ∀ x : Image, (∃ b s, encodeImage b s = x) ↔ InImage x

/-- R49: the whole-number form of the codec, with `ROR_245` and `ROL_245` written out. -/
def Obligations.CodecWholeNumberForm : Prop :=
  (∀ x : Image, ∀ d r : Nat,
    d = (∑ i ∈ Finset.range 35, (byteOf x i).toNat % 128 * 2 ^ (7 * (34 - i))) →
    r = (∑ i ∈ Finset.range 35, ((byteOf x i).getLsbD 7).toNat * 2 ^ (34 - i)) % 245 →
      (decodeImage x).1.toNat = ((d >>> r) + (d <<< (245 - r))) % 2 ^ 245 % 2 ^ 239) ∧
  (∀ x : Image, (decodeImage x).2.toNat = ∑ i ∈ Finset.range 35, ((byteOf x i).getLsbD 7).toNat * 2 ^ (34 - i)) ∧
  (∀ (v : CanonicalBits) (s : ShiftAmount) (r i : Nat), r = s.toNat % 245 → i < 35 →
    (byteOf (encodeImage v s) i).toNat = (s.getLsbD (34 - i)).toNat * 128 +
      ((((v.toNat <<< r) + (v.toNat >>> (245 - r))) % 2 ^ 245) >>> (7 * (34 - i))) % 128)

/-! ### The bit-sequence functions -/

/-- R60, R61, R62: the comparator compares unsigned values. -/
def Obligations.ComparatorComparesValues : Prop :=
  ∀ a b : CanonicalBits, bsIsZero a = decide (a.toNat = 0) ∧ bsEqual a b = decide (a.toNat = b.toNat) ∧
    bsLessThan a b = decide (a.toNat < b.toNat)

/-- R71: the ripple adder adds modulo 2^239. -/
def Obligations.AdderAddsModulo : Prop :=
  ∀ a b : CanonicalBits, (bsAdd a b).toNat = (a.toNat + b.toNat) % 2 ^ 239

/-- R72: the ripple subtractor subtracts modulo 2^239. -/
def Obligations.SubtractorSubtractsModulo : Prop :=
  ∀ a b : CanonicalBits, ((bsSub a b).toNat : Int) = ((a.toNat : Int) - (b.toNat : Int)) % 2 ^ 239

/-- R80: the schoolbook multiplier gives the low 239 bits of the product. -/
def Obligations.MultiplierMultipliesModulo : Prop :=
  ∀ a b : CanonicalBits, (bsMul a b).toNat = (a.toNat * b.toNat) % 2 ^ 239

/-- R85: the restoring divider gives the truncated quotient, and DivisionByZero exactly for a zero divisor. -/
def Obligations.DividerDivides : Prop :=
  ∀ a b : CanonicalBits, (b.toNat = 0 → bsDiv a b = none) ∧
    (b.toNat ≠ 0 → ∃ q, bsDiv a b = some q ∧ q.toNat = a.toNat / b.toNat)

/-- R86: after `m` iterations the remainder is below `2^m`, so 239 bits hold every trial value; and the division law. -/
def Obligations.RemainderFitsTheRegister : Prop :=
  ∀ a b : CanonicalBits,
    (∀ m < 239, (divLoop a b m).2 < 2 ^ m ∧ 2 * (divLoop a b m).2 + (a.getLsbD (238 - m)).toNat < 2 ^ (m + 1)) ∧
    (b.toNat ≠ 0 → a.toNat = (divLoop a b 239).1.toNat * b.toNat + (divLoop a b 239).2 ∧ (divLoop a b 239).2 < b.toNat)

/-- R75: adder and subtractor modulo 2^239. -/
def Obligations.AdderSubtractorLaws : Prop :=
  ∀ a b c : CanonicalBits, bsAdd a b = bsAdd b a ∧ bsAdd (bsAdd a b) c = bsAdd a (bsAdd b c) ∧
    bsSub (bsAdd a b) b = a ∧ bsAdd (bsSub a b) b = a ∧ bsSub a b = bsAdd a (bsSub 0 b)

/-- R81: the multiplier modulo 2^239. -/
def Obligations.MultiplierLaws : Prop :=
  ∀ a b c : CanonicalBits, bsMul a b = bsMul b a ∧ bsMul (bsMul a b) c = bsMul a (bsMul b c) ∧
    bsMul a (bsAdd b c) = bsAdd (bsMul a b) (bsMul a c)

/-! ### The commands: word, result, frame -/

/-- R50. -/
def Obligations.LdvLoadsDin : Prop :=
  ∀ (rd : Reg) (s : State), decode (BitVec.ofNat 16 (0x0800 + (rd.toNat <<< 8))) = .ok (.ldv rd) ∧
    ∃ t, exec (.ldv rd) s = .next t ∧ WritesOnly s t rd s.txn.din

/-- R51. -/
def Obligations.RdvReturnsTheStoredBits : Prop :=
  ∀ (ra : Reg) (s : State), decode (BitVec.ofNat 16 (0x1000 + (ra.toNat <<< 5))) = .ok (.rdv ra) ∧
    ∃ t, exec (.rdv ra) s = .next t ∧ AnswersOnly s t ⟨.ok, readV s ra, 0, false⟩

/-- R52, with the bits of R40. -/
def Obligations.GetShiftReturnsAllShiftBits : Prop :=
  ∀ (ra : Reg) (s : State), decode (BitVec.ofNat 16 (0x1800 + (ra.toNat <<< 5))) = .ok (.getshift ra) ∧
    ∃ t k, exec (.getshift ra) s = .next t ∧ AnswersOnly s t ⟨.ok, 0, k, false⟩ ∧
      ∀ i < 35, k.getLsbD (34 - i) = (readV s ra).getLsbD (279 - 8 * i)

/-- R53. -/
def Obligations.GetShift32ReturnsLow32Bits : Prop :=
  ∀ (ra : Reg) (s : State), decode (BitVec.ofNat 16 (0x2000 + (ra.toNat <<< 5))) = .ok (.getshift32 ra) ∧
    ∃ t k, exec (.getshift32 ra) s = .next t ∧ AnswersOnly s t ⟨.ok, 0, k, false⟩ ∧ k.toNat = regTag s ra % 2 ^ 32

/-- R54. -/
def Obligations.SetShiftCommandRewritesShiftBits : Prop :=
  ∀ (rd ra : Reg) (s : State),
    decode (BitVec.ofNat 16 (0x2800 + (rd.toNat <<< 8) + (ra.toNat <<< 5))) = .ok (.setshift rd ra) ∧
    ∃ t x, exec (.setshift rd ra) s = .next t ∧ WritesOnly s t rd x ∧
      (∀ i < 35, (byteOf x i).getLsbD 7 = s.txn.sin.getLsbD (34 - i) ∧
        ∀ b < 7, (byteOf x i).getLsbD b = (byteOf (readV s ra) i).getLsbD b) ∧
      (s.txn.sin.toNat % 245 = regTag s ra % 245 → valueOf x = regValue s ra)

/-- R55, with R46's number form. -/
def Obligations.DecodeCommandReturnsValueAndShift : Prop :=
  ∀ (ra : Reg) (s : State), decode (BitVec.ofNat 16 (0x3000 + (ra.toNat <<< 5))) = .ok (.decode ra) ∧
    ∃ t d, exec (.decode ra) s = .next t ∧ AnswersOnly s t ⟨.ok, d, getShift (readV s ra), false⟩ ∧
      d.toNat = (rotr245 (unpackData (readV s ra)) ((getShift (readV s ra)).toNat % 245)).toNat % 2 ^ 239

/-- R56. -/
def Obligations.EncodeCommandStoresTheImage : Prop :=
  ∀ (rd : Reg) (s : State), decode (BitVec.ofNat 16 (0x3800 + (rd.toNat <<< 8))) = .ok (.encode rd) ∧
    ∃ t x, exec (.encode rd) s = .next t ∧ WritesOnly s t rd x ∧
      valueOf x = s.txn.din.toNat % 2 ^ 239 ∧ tagOf x = s.txn.sin.toNat ∧ InImage x

/-- R92. -/
def Obligations.FromIntConstructsTheValue : Prop :=
  ∀ (rd : Reg) (s : State), decode (BitVec.ofNat 16 (0x4000 + (rd.toNat <<< 8))) = .ok (.fromint rd) ∧
    ∃ t x, exec (.fromint rd) s = .next t ∧ WritesOnly s t rd x ∧
      valueOf x = s.txn.vin.toNat ∧ tagOf x = s.txn.sin.toNat ∧ InImage x

/-- R93. -/
def Obligations.ShlAddsToTheTagAndKeepsTheValue : Prop :=
  ∀ (rd ra : Reg) (s : State),
    decode (BitVec.ofNat 16 (0x4800 + (rd.toNat <<< 8) + (ra.toNat <<< 5))) = .ok (.shl rd ra) ∧
    ∃ t x, exec (.shl rd ra) s = .next t ∧ WritesOnly s t rd x ∧ valueOf x = regValue s ra ∧
      tagOf x = (regTag s ra + s.txn.sin.toNat) % 2 ^ 35 ∧ InImage x

/-- R94. -/
def Obligations.ShrTakesFromTheTagAndKeepsTheValue : Prop :=
  ∀ (rd ra : Reg) (s : State),
    decode (BitVec.ofNat 16 (0x5000 + (rd.toNat <<< 8) + (ra.toNat <<< 5))) = .ok (.shr rd ra) ∧
    ∃ t x, exec (.shr rd ra) s = .next t ∧ WritesOnly s t rd x ∧ valueOf x = regValue s ra ∧
      (tagOf x : Int) = ((regTag s ra : Int) - (s.txn.sin.toNat : Int)) % 2 ^ 35 ∧ InImage x

/-- R73. -/
def Obligations.AddAddsValuesAndTags : Prop :=
  ∀ (rd ra rb : Reg) (s : State),
    decode (BitVec.ofNat 16 (0x8000 + (rd.toNat <<< 8) + (ra.toNat <<< 5) + (rb.toNat <<< 2))) = .ok (.add rd ra rb) ∧
    ∃ t x, exec (.add rd ra rb) s = .next t ∧ WritesOnly s t rd x ∧
      valueOf x = (regValue s ra + regValue s rb) % 2 ^ 239 ∧ tagOf x = (regTag s ra + regTag s rb) % 2 ^ 35 ∧ InImage x

/-- R74; the tag wraps (spec/90_conflicts.md C3). -/
def Obligations.SubSubtractsValuesAndTags : Prop :=
  ∀ (rd ra rb : Reg) (s : State),
    decode (BitVec.ofNat 16 (0x8800 + (rd.toNat <<< 8) + (ra.toNat <<< 5) + (rb.toNat <<< 2))) = .ok (.sub rd ra rb) ∧
    ∃ t x, exec (.sub rd ra rb) s = .next t ∧ WritesOnly s t rd x ∧
      (valueOf x : Int) = ((regValue s ra : Int) - (regValue s rb : Int)) % 2 ^ 239 ∧
      (tagOf x : Int) = ((regTag s ra : Int) - (regTag s rb : Int)) % 2 ^ 35 ∧ InImage x

/-- R82. -/
def Obligations.MulMultipliesValuesAndAddsTags : Prop :=
  ∀ (rd ra rb : Reg) (s : State),
    decode (BitVec.ofNat 16 (0x9000 + (rd.toNat <<< 8) + (ra.toNat <<< 5) + (rb.toNat <<< 2))) = .ok (.mul rd ra rb) ∧
    ∃ t x, exec (.mul rd ra rb) s = .next t ∧ WritesOnly s t rd x ∧
      valueOf x = (regValue s ra * regValue s rb) % 2 ^ 239 ∧ tagOf x = (regTag s ra + regTag s rb) % 2 ^ 35 ∧ InImage x

/-- R87: the quotient with the saturating tag (spec/90_conflicts.md C4), or DivisionByZero with the destination kept. -/
def Obligations.DivDividesOrRaises : Prop :=
  ∀ (rd ra rb : Reg) (s : State),
    decode (BitVec.ofNat 16 (0x9800 + (rd.toNat <<< 8) + (ra.toNat <<< 5) + (rb.toNat <<< 2))) = .ok (.div rd ra rb) ∧
    (regValue s rb ≠ 0 → ∃ t x, exec (.div rd ra rb) s = .next t ∧ WritesOnly s t rd x ∧
      valueOf x = regValue s ra / regValue s rb ∧
      tagOf x = (if regTag s rb ≤ regTag s ra then regTag s ra - regTag s rb else 0) ∧ InImage x) ∧
    (regValue s rb = 0 → ∃ t, exec (.div rd ra rb) s = .next t ∧ RaisesOnly s t 0 .divZero)

/-- R64. -/
def Obligations.IsZeroTestsTheValue : Prop :=
  ∀ (ra : Reg) (s : State), decode (BitVec.ofNat 16 (0xC000 + (ra.toNat <<< 5))) = .ok (.iszero ra) ∧
    ∃ t, exec (.iszero ra) s = .next t ∧ AnswersOnly s t ⟨.ok, 0, 0, decide (regValue s ra = 0)⟩

/-- R65. -/
def Obligations.EqComparesValues : Prop :=
  ∀ (ra rb : Reg) (s : State),
    decode (BitVec.ofNat 16 (0xC800 + (ra.toNat <<< 5) + (rb.toNat <<< 2))) = .ok (.eq ra rb) ∧
    ∃ t, exec (.eq ra rb) s = .next t ∧ AnswersOnly s t ⟨.ok, 0, 0, decide (regValue s ra = regValue s rb)⟩

/-- R66. -/
def Obligations.NeIsTheComplementOfEq : Prop :=
  ∀ (ra rb : Reg) (s : State),
    decode (BitVec.ofNat 16 (0xD000 + (ra.toNat <<< 5) + (rb.toNat <<< 2))) = .ok (.ne ra rb) ∧
    ∃ t, exec (.ne ra rb) s = .next t ∧ AnswersOnly s t ⟨.ok, 0, 0, decide (regValue s ra ≠ regValue s rb)⟩

/-- R67. -/
def Obligations.LtComparesUnsigned : Prop :=
  ∀ (ra rb : Reg) (s : State),
    decode (BitVec.ofNat 16 (0xD800 + (ra.toNat <<< 5) + (rb.toNat <<< 2))) = .ok (.lt ra rb) ∧
    ∃ t, exec (.lt ra rb) s = .next t ∧ AnswersOnly s t ⟨.ok, 0, 0, decide (regValue s ra < regValue s rb)⟩

/-- R68. -/
def Obligations.GtComparesUnsigned : Prop :=
  ∀ (ra rb : Reg) (s : State),
    decode (BitVec.ofNat 16 (0xE000 + (ra.toNat <<< 5) + (rb.toNat <<< 2))) = .ok (.gt ra rb) ∧
    ∃ t, exec (.gt ra rb) s = .next t ∧ AnswersOnly s t ⟨.ok, 0, 0, decide (regValue s ra > regValue s rb)⟩

/-! ### Laws over several commands -/

/-- R75: SUB followed by ADD of the same register restores the value and the tag, as `encode(decode(V[ra]))`. -/
def Obligations.SubThenAddRestores : Prop :=
  ∀ (rd ra rb : Reg) (s : State), rd ≠ rb → ∃ t u, exec (.sub rd ra rb) s = .next t ∧ exec (.add rd rd rb) t = .next u ∧
    readV u rd = encodeImage (decodeImage (readV s ra)).1 (decodeImage (readV s ra)).2

/-- R95: SHL then SHR by the same count gives back the image if it is in the image of `encode`, and else the image with its padding
cleared. -/
def Obligations.ShlThenShrRestores : Prop :=
  ∀ (rd ra : Reg) (s : State), ∃ t u, exec (.shl rd ra) s = .next t ∧ exec (.shr rd rd) t = .next u ∧
    decodeImage (readV u rd) = decodeImage (readV s ra) ∧ InImage (readV u rd) ∧
    (InImage (readV s ra) → readV u rd = readV s ra)

/-- R95: two SHL commands by `m` and `n` give the image of one by `(m + n) mod 2^35`. -/
def Obligations.ShlComposes : Prop :=
  ∀ (rd ra : Reg) (s : State) (m n : ShiftAmount), ∃ t u w,
    exec (.shl rd ra) { s with txn := { s.txn with sin := m } } = .next t ∧
    exec (.shl rd rd) { t with txn := { t.txn with sin := n } } = .next u ∧
    exec (.shl rd ra) { s with txn := { s.txn with sin := m + n } } = .next w ∧ readV u rd = readV w rd

/-! ### The whole machine -/

/-- R100: DivisionByZero is raised by exactly one command, DIV, exactly when the divisor's canonical bits are all zero. -/
def Obligations.DivZeroRaisedByDivAlone : Prop :=
  statusCode .divZero = 1 ∧
    ∀ (i : Instr) (s t : State), exec i s = .next t →
      (t.rsp.status = .divZero ↔ ∃ rd ra rb, i = .div rd ra rb ∧ regValue s rb = 0) ∧
      (t.rsp.status = .divZero → RaisesOnly s t 0 .divZero)

/-- R102: a step that ends with a status other than OK wrote no register and set at most the sticky bit of its cause, and its data fields
are 0. -/
def Obligations.RaiseDisturbsNothing : Prop :=
  ∀ (s t : State) (c : Transaction) (rest : List HostEvent), s.host = .command c :: rest → step s = .next t →
    t.rsp.status ≠ .ok →
    (∀ r, readV t r = readV s r) ∧ t.fsr = s.fsr ||| statusCode t.rsp.status ∧
      t.rsp.dout = 0 ∧ t.rsp.sout = 0 ∧ t.rsp.tout = false ∧ t.host = rest

/-- R17: the only effects of a command are at most one write to one register, at most one FSR bit set, and the response. -/
def Obligations.OneRegisterAtMostIsWritten : Prop :=
  ∀ (s t : State) (c : Transaction) (rest : List HostEvent), s.host = .command c :: rest → step s = .next t →
    ∃ rd b, (∀ r, r ≠ rd → readV t r = readV s r) ∧ (∀ k, k ≠ b → t.fsr.getLsbD k = s.fsr.getLsbD k) ∧
      (t.fsr ≠ s.fsr → readV t rd = readV s rd) ∧ t.host = rest

/-- R12: once a bit of FSR is 1 it stays 1 until reset, whatever commands follow. -/
def Obligations.FsrBitsAreSticky : Prop :=
  ∀ (s t : State) (b : Nat), step s = .next t → s.host.head? ≠ some .reset → s.fsr.getLsbD b = true → t.fsr.getLsbD b = true

/-- R12, the columns 'set by': DZ by a DIV that raises, IL by an illegal word, neither by anything else. -/
def Obligations.FsrBitsAreSetByTheirCauseOnly : Prop :=
  ∀ (s t : State) (c : Transaction) (rest : List HostEvent), s.host = .command c :: rest → step s = .next t →
    (fsrDZ t.fsr = true ↔ fsrDZ s.fsr = true ∨ ∃ rd ra rb, decode c.cmd = .ok (.div rd ra rb) ∧ regValue s rb = 0) ∧
    (fsrIL t.fsr = true ↔ fsrIL s.fsr = true ∨ legalWord c.cmd = false)

/-- R12: no command's result depends on FSR. -/
def Obligations.NoCommandReadsFsr : Prop :=
  ∀ (i : Instr) (s t : State) (f : BitVec 2), exec i s = .next t →
    ∃ u, exec i { s with fsr := f } = .next u ∧ (∀ r, readV u r = readV t r) ∧ u.rsp = t.rsp

/-- R15: an input a command does not read is ignored. -/
def Obligations.UnreadPortsAreIgnored : Prop :=
  ∀ (i : Instr) (s t : State) (c : Transaction), SameReadPorts i s.txn c → exec i s = .next t →
    exec i { s with txn := c } = .next { t with txn := c }

/-- R15, R27 (d), R114: every step keeps the response and FSR consistent. -/
def Obligations.StepKeepsResponseConsistent : Prop :=
  ∀ s t : State, ResponseConsistent s → step s = .next t → ResponseConsistent t

/-- The invariant of `StepKeepsResponseConsistent` holds right after reset (R110). -/
def Obligations.ResetIsResponseConsistent : Prop := ResponseConsistent State.reset

/-- R9: every value the block writes by a command other than LDV and SETSHIFT is in the image of `encode`: a stream without these two and
without a reset keeps all registers in that image. -/
def Obligations.StepKeepsRegistersInTheImageOfEncode : Prop :=
  ∀ s t : State, CanonicalRun s → step s = .next t → CanonicalRun t

/-! ### The host procedures -/

/-- R97: 314 characters: eight bit characters per byte, bit 7 first, byte 0 first, one space between two bytes. -/
def Obligations.FormatWritesTheStoredBits : Prop :=
  ∀ x : Image, (formatImage x).length = 314 ∧
    (∀ i < 35, ∀ k < 8, (formatImage x)[9 * i + k]? = some (if (byteOf x i).getLsbD (7 - k) then '1' else '0')) ∧
    ∀ i < 34, (formatImage x)[9 * i + 8]? = some ' '

/-- R96: non-digits are skipped, and wrapping at every digit is the exact decimal value modulo `2^ACC_BITS`. -/
def Obligations.DecimalTextWrapsModuloAccumulator : Prop :=
  ∀ (accBits : Nat) (text : List Char),
    decimalValue accBits text = ((text.filter Char.isDigit).foldl (fun v c => v * 10 + (c.toNat - 48)) 0) % 2 ^ accBits

/-- R96: the transaction that fromDecimalString issues loads the accumulator (modulo 2^239) and the shift into the register. -/
def Obligations.DecimalTransactionLoadsTheAccumulator : Prop :=
  ∀ (accBits : Nat) (text : List Char) (shift : BitVec 32) (rd : Reg) (s : State), ∃ i t,
    decode (fromDecimalString accBits text shift rd).cmd = .ok i ∧
    exec i { s with txn := fromDecimalString accBits text shift rd } = .next t ∧
    regValue t rd = decimalValue accBits text % 2 ^ 239 ∧ regTag t rd = shift.toNat
end

