-- ==== Sys2Proof/Laws/Bits.lean ====
section
/-! SUPPORT. What each bit of a built sequence is: the builders, the byte lanes, and the codec functions bit by bit. -/

namespace Sys2Proof.Machine

@[simp] theorem getLsbD_seqLsb (n : Nat) (f : Nat → Bool) (i : Nat) :
    (seqLsb n f).getLsbD i = (decide (i < n) && f i) := by
  induction n with
  | zero => simp [seqLsb]
  | succ n ih =>
    rw [seqLsb, BitVec.getLsbD_cons, ih]
    by_cases h : i = n
    · simp [h]
    · by_cases h' : i < n
      · simp [h, h', Nat.lt_succ_of_lt h']
      · simp [h, h', show ¬ i < n + 1 by omega]

@[simp] theorem getMsbD_seqMsb (n : Nat) (f : Nat → Bool) (j : Nat) :
    (seqMsb n f).getMsbD j = (decide (j < n) && f j) := by
  rw [BitVec.getMsbD, seqMsb, getLsbD_seqLsb]
  by_cases h : j < n
  · simp [h, show n - 1 - j < n by omega, show n - 1 - (n - 1 - j) = j by omega]
  · simp [h]

theorem getLsbD_seqMsb (n : Nat) (f : Nat → Bool) (k : Nat) :
    (seqMsb n f).getLsbD k = (decide (k < n) && f (n - 1 - k)) := by
  rw [seqMsb, getLsbD_seqLsb]

@[simp] theorem getElem_seqLsb (n : Nat) (f : Nat → Bool) (i : Nat) (h : i < n) : (seqLsb n f)[i] = f i := by
  rw [← BitVec.getLsbD_eq_getElem, getLsbD_seqLsb]
  simp [h]

/-- Bit `b` of byte `i` is `x[272 - 8*i + b]` (R22). -/
theorem getLsbD_byteOf (x : Image) (i b : Nat) :
    (byteOf x i).getLsbD b = (decide (b < 8) && x.getLsbD (272 - 8 * i + b)) := by
  simp [byteOf]

theorem getLsbD_packed (f : Nat → Byte) (n : Nat) :
    (packed f).getLsbD n = (decide (n < 280) && (f (34 - n / 8)).getLsbD (n % 8)) := by
  simp [packed]

/-- `bytes(packed(B)) = B` (R22). -/
theorem byteOf_packed (f : Nat → Byte) (i : Nat) (h : i < 35) : byteOf (packed f) i = f i := by
  apply BitVec.eq_of_getLsbD_eq
  intro b hb
  rw [getLsbD_byteOf, getLsbD_packed]
  simp [hb, show 272 - 8 * i + b < 280 by omega, show 34 - (272 - 8 * i + b) / 8 = i by omega,
    show (272 - 8 * i + b) % 8 = b by omega]

/-- Two images whose 35 bytes agree are equal (R22). -/
theorem image_ext (x y : Image) (h : ∀ i < 35, byteOf x i = byteOf y i) : x = y := by
  apply BitVec.eq_of_getLsbD_eq
  intro n hn
  have hb := congrArg (fun z => BitVec.getLsbD z (n % 8)) (h (34 - n / 8) (by omega))
  simpa only [getLsbD_byteOf, show n % 8 < 8 by omega, show 272 - 8 * (34 - n / 8) + n % 8 = n by omega,
    decide_true, Bool.true_and] using hb

/-- On the register image, bit `34 - i` of the shift is `x[279 - 8*i]` (R40). -/
theorem getMsbD_getShift (x : Image) (i : Nat) (h : i < 35) : (getShift x).getMsbD i = x.getLsbD (279 - 8 * i) := by
  rw [getShift, getMsbD_seqMsb, getLsbD_byteOf, show 272 - 8 * i + 7 = 279 - 8 * i by omega]
  simp [h]

/-- On the register image, `D[7*i + m] = x[278 - 8*i - m]` (R42). -/
theorem getMsbD_unpackData (x : Image) (j : Nat) (h : j < 245) :
    (unpackData x).getMsbD j = x.getLsbD (278 - 8 * (j / 7) - j % 7) := by
  simp [unpackData, h, getLsbD_byteOf, show 6 - j % 7 < 8 by omega,
    show 272 - 8 * (j / 7) + (6 - j % 7) = 278 - 8 * (j / 7) - j % 7 by omega]

theorem byteOf_setShift (x : Image) (s : ShiftAmount) (i : Nat) (h : i < 35) :
    byteOf (setShift x s) i = BitVec.cons (s.getLsbD (34 - i)) ((byteOf x i).extractLsb' 0 7) :=
  byteOf_packed _ i h

theorem byteOf_packData (l : StoredData) (i : Nat) (h : i < 35) :
    byteOf (packData l) i = BitVec.cons false (seqMsb 7 fun m => l.getMsbD (7 * i + m)) :=
  byteOf_packed _ i h

theorem getMsbD_rotr245 (d : StoredData) (r j : Nat) (h : j < 245) :
    (rotr245 d r).getMsbD j = d.getMsbD ((j + (245 - r)) % 245) := by
  simp [rotr245, h]

theorem getMsbD_rotl245 (a : StoredData) (r j : Nat) (h : j < 245) :
    (rotl245 a r).getMsbD j = a.getMsbD ((j + r) % 245) := by
  simp [rotl245, h]

theorem getLsbD_canonicalOf (x : Image) (k : Nat) (h : k < 239) :
    (canonicalOf x).getLsbD k = (derotated x).getMsbD (244 - k) := by
  rw [canonicalOf, takeCanonical, getLsbD_seqLsb]
  simp [h]

theorem getMsbD_paddingOf (x : Image) (j : Nat) (h : j < 6) : (paddingOf x).getMsbD j = (derotated x).getMsbD j := by
  simp [paddingOf, takePadding, h]

theorem getMsbD_padded (c : CanonicalBits) (j : Nat) (h : j < 245) :
    (padded c).getMsbD j = if j < 6 then false else c.getLsbD (244 - j) := by
  simp [padded, h]

end Sys2Proof.Machine
end

