-- ==== Sys2Proof/Laws/State.lean ====
section
/-! SUPPORT. One lemma per field per update of the state, and what each named operation of Machine/Ops.lean can do. -/

namespace Sys2Proof.Machine

@[simp] theorem writeV_fsr (s : State) (r : Reg) (x : Image) : (writeV s r x).fsr = s.fsr := rfl
@[simp] theorem writeV_rsp (s : State) (r : Reg) (x : Image) : (writeV s r x).rsp = s.rsp := rfl
@[simp] theorem writeV_txn (s : State) (r : Reg) (x : Image) : (writeV s r x).txn = s.txn := rfl
@[simp] theorem writeV_host (s : State) (r : Reg) (x : Image) : (writeV s r x).host = s.host := rfl
@[simp] theorem writeV_resets (s : State) (r : Reg) (x : Image) : (writeV s r x).resets = s.resets := rfl

@[simp] theorem respond_v (s : State) (p : Response) : (respond s p).v = s.v := rfl
@[simp] theorem respond_fsr (s : State) (p : Response) : (respond s p).fsr = s.fsr := rfl
@[simp] theorem respond_rsp (s : State) (p : Response) : (respond s p).rsp = p := rfl
@[simp] theorem respond_txn (s : State) (p : Response) : (respond s p).txn = s.txn := rfl
@[simp] theorem respond_host (s : State) (p : Response) : (respond s p).host = s.host := rfl
@[simp] theorem respond_resets (s : State) (p : Response) : (respond s p).resets = s.resets := rfl

@[simp] theorem raise_v (s : State) (c : Cause) : (raise s c).v = s.v := rfl
@[simp] theorem raise_fsr (s : State) (c : Cause) : (raise s c).fsr = setSticky s.fsr c := rfl
@[simp] theorem raise_rsp (s : State) (c : Cause) : (raise s c).rsp = ⟨causeStatus c, 0, 0, false⟩ := rfl
@[simp] theorem raise_txn (s : State) (c : Cause) : (raise s c).txn = s.txn := rfl
@[simp] theorem raise_host (s : State) (c : Cause) : (raise s c).host = s.host := rfl
@[simp] theorem raise_resets (s : State) (c : Cause) : (raise s c).resets = s.resets := rfl

@[simp] theorem accept_v (s : State) (t : Transaction) (h : List HostEvent) : (accept s t h).v = s.v := rfl
@[simp] theorem accept_fsr (s : State) (t : Transaction) (h : List HostEvent) : (accept s t h).fsr = s.fsr := rfl
@[simp] theorem accept_rsp (s : State) (t : Transaction) (h : List HostEvent) : (accept s t h).rsp = s.rsp := rfl
@[simp] theorem accept_txn (s : State) (t : Transaction) (h : List HostEvent) : (accept s t h).txn = t := rfl
@[simp] theorem accept_host (s : State) (t : Transaction) (h : List HostEvent) : (accept s t h).host = h := rfl
@[simp] theorem accept_resets (s : State) (t : Transaction) (h : List HostEvent) : (accept s t h).resets = s.resets := rfl

@[simp] theorem resetBlock_fsr (s : State) : (resetBlock s).fsr = 0 := rfl
@[simp] theorem resetBlock_rsp (s : State) : (resetBlock s).rsp = Response.zero := rfl
@[simp] theorem resetBlock_txn (s : State) : (resetBlock s).txn = s.txn := rfl
@[simp] theorem resetBlock_host (s : State) : (resetBlock s).host = s.host := rfl
@[simp] theorem resetBlock_resets (s : State) : (resetBlock s).resets = s.resets + 1 := rfl

@[simp] theorem advanceHost_v (s : State) (h : List HostEvent) : (advanceHost s h).v = s.v := rfl
@[simp] theorem advanceHost_host (s : State) (h : List HostEvent) : (advanceHost s h).host = h := rfl
@[simp] theorem advanceHost_resets (s : State) (h : List HostEvent) : (advanceHost s h).resets = s.resets := rfl

/-- Read after write of the same register. -/
@[simp] theorem readV_writeV_same (s : State) (r : Reg) (x : Image) : readV (writeV s r x) r = x := by
  simp [readV, writeV]

/-- A write leaves every other register alone. -/
theorem readV_writeV_other (s : State) (r q : Reg) (x : Image) (h : q ≠ r) : readV (writeV s r x) q = readV s q := by
  have hn : r.toNat ≠ q.toNat := fun e => h (BitVec.eq_of_toNat_eq e.symm)
  simp [readV, writeV, hn]

@[simp] theorem readV_respond (s : State) (p : Response) (r : Reg) : readV (respond s p) r = readV s r := rfl
@[simp] theorem readV_raise (s : State) (c : Cause) (r : Reg) : readV (raise s c) r = readV s r := rfl
@[simp] theorem readV_accept (s : State) (t : Transaction) (h : List HostEvent) (r : Reg) :
    readV (accept s t h) r = readV s r := rfl
@[simp] theorem readV_advanceHost (s : State) (h : List HostEvent) (r : Reg) : readV (advanceHost s h) r = readV s r := rfl

/-- After a reset each register holds that reset's free draw. -/
theorem readV_resetBlock (s : State) (r : Reg) : readV (resetBlock s) r = Config.resetImage (s.resets + 1) r := by
  simp [readV, resetBlock, resetRegisters]

/-- After reset each register holds the free draw of reset number 0. -/
theorem readV_reset (r : Reg) : readV State.reset r = Config.resetImage 0 r := by
  simp [readV, State.reset, resetRegisters]

/-- What completing with a register write can do. -/
theorem completeWrite_spec (s : State) (rd : Reg) (x : Image) :
    readV (completeWrite s rd x) rd = x ∧ (∀ r, r ≠ rd → readV (completeWrite s rd x) r = readV s r) ∧
      (completeWrite s rd x).fsr = s.fsr ∧ (completeWrite s rd x).rsp = ⟨.ok, 0, 0, false⟩ ∧
      (completeWrite s rd x).txn = s.txn ∧ (completeWrite s rd x).host = s.host ∧ (completeWrite s rd x).resets = s.resets :=
  ⟨by simp [completeWrite], fun r h => by simp [completeWrite, readV_writeV_other s rd r x h], rfl, rfl, rfl, rfl, rfl⟩

/-- What completing with a response can do. -/
theorem respond_spec (s : State) (p : Response) :
    (∀ r, readV (respond s p) r = readV s r) ∧ (respond s p).fsr = s.fsr ∧ (respond s p).rsp = p ∧
      (respond s p).txn = s.txn ∧ (respond s p).host = s.host ∧ (respond s p).resets = s.resets :=
  ⟨fun _ => rfl, rfl, rfl, rfl, rfl, rfl⟩

/-- Setting a sticky bit sets it and keeps the other. -/
theorem getLsbD_setSticky (f : BitVec 2) (c : Cause) (b : Nat) :
    (setSticky f c).getLsbD b = (f.getLsbD b || (match c with | .divisionByZero => b == 0 | .illegalCommand => b == 1)) := by
  rcases b with _ | _ | b
  · cases c <;> simp [setSticky, causeBit]
  · cases c <;> simp [setSticky, causeBit]
  · cases c <;> simp [setSticky, causeBit]

end Sys2Proof.Machine
end

