-- ==== Sys2Proof/Laws/Exec.lean ====
section
/-! SUPPORT. What a command and a step can do, said once: the inversion lemmas that later proofs cite instead of unfolding. -/

namespace Sys2Proof.Machine

theorem completeWrite_writesOnly (s : State) (rd : Reg) (x : Image) : WritesOnly s (completeWrite s rd x) rd x :=
  completeWrite_spec s rd x

theorem respond_answersOnly (s : State) (p : Response) : AnswersOnly s (respond s p) p := respond_spec s p

theorem raise_raisesOnly (s : State) (c : Cause) :
    RaisesOnly s (raise s c) (match c with | .divisionByZero => 0 | .illegalCommand => 1) (causeStatus c) :=
  ⟨fun _ => rfl, fun b => by cases c <;> simp [getLsbD_setSticky], rfl, rfl, rfl, rfl⟩

/-- A command completes by writing one register, or by answering with status OK, or (DIV alone) by raising DivisionByZero. -/
theorem exec_cases (i : Instr) (s t : State) (h : exec i s = .next t) :
    (∃ rd x, t = completeWrite s rd x) ∨ (∃ p : Response, p.status = .ok ∧ t = respond s p) ∨
      ((∃ rd ra rb, i = .div rd ra rb ∧ bsDiv (bitsOfReg s ra) (bitsOfReg s rb) = none) ∧ t = raise s .divisionByZero) := by
  cases i with
  | div rd ra rb =>
    simp only [exec, execDiv, Host.Outcome.next.injEq] at h
    cases hq : bsDiv (bitsOfReg s ra) (bitsOfReg s rb) with
    | none => exact .inr (.inr ⟨⟨rd, ra, rb, rfl, hq⟩, by rw [← h, hq]⟩)
    | some q => exact .inl ⟨rd, _, by rw [← h, hq]⟩
  | ldv rd | setshift rd ra | encode rd | fromint rd | shl rd ra | shr rd ra | add rd ra rb | sub rd ra rb | mul rd ra rb =>
    cases h; exact .inl ⟨_, _, rfl⟩
  | rdv ra | getshift ra | getshift32 ra | decode ra | iszero ra | eq ra rb | ne ra rb | lt ra rb | gt ra rb =>
    cases h; exact .inr (.inl ⟨_, rfl, rfl⟩)

/-- A step is idle, or a reset, or executes the decoded command, or raises IllegalCommand. -/
theorem step_cases (s t : State) (h : step s = .next t) :
    (s.host = [] ∧ t = s) ∨ (∃ rest, s.host = .reset :: rest ∧ t = resetBlock (advanceHost s rest)) ∨
      (∃ c rest i, s.host = .command c :: rest ∧ decode c.cmd = .ok i ∧ exec i (accept s c rest) = .next t) ∨
      (∃ c rest e, s.host = .command c :: rest ∧ decode c.cmd = .error e ∧ t = raise (accept s c rest) .illegalCommand) := by
  unfold step at h
  split at h
  · next hh => cases h; exact .inl ⟨hh, rfl⟩
  · next rest hh => cases h; exact .inr (.inl ⟨rest, hh, rfl⟩)
  · next c rest hh =>
    split at h
    · next i hd => exact .inr (.inr (.inl ⟨c, rest, i, hh, hd, h⟩))
    · next e hd => cases h; exact .inr (.inr (.inr ⟨c, rest, e, hh, hd, rfl⟩))

end Sys2Proof.Machine
end

