-- ==== Sys2Proof/Laws/PerInstr.lean ====
section
/-! SUPPORT. The per-command family `EncodesRow`: the word that the encoder writes is the word of the command's own row of
spec/30_encoding.md R33 under the row's mask (R31). -/

namespace Sys2Proof.Laws.EncodesRow

-- One theorem at a time: each `decide +kernel` below would otherwise hold a thread of its own while it waits for the kernel.
set_option Elab.async false

/-- The row of the command selects the command's word, and is a row of the opcode map. -/
def Statement (i : Instr) : Prop := i.row ∈ opcodeMap ∧ i.row.selects (encode i) = true

theorem ldv : ∀ rd, Statement (.ldv rd) := by unfold Statement; decide +kernel
theorem rdv : ∀ ra, Statement (.rdv ra) := by unfold Statement; decide +kernel
theorem getshift : ∀ ra, Statement (.getshift ra) := by unfold Statement; decide +kernel
theorem getshift32 : ∀ ra, Statement (.getshift32 ra) := by unfold Statement; decide +kernel
theorem setshift : ∀ rd ra, Statement (.setshift rd ra) := by unfold Statement; decide +kernel
theorem decode : ∀ ra, Statement (.decode ra) := by unfold Statement; decide +kernel
theorem encode : ∀ rd, Statement (.encode rd) := by unfold Statement; decide +kernel
theorem fromint : ∀ rd, Statement (.fromint rd) := by unfold Statement; decide +kernel
theorem shl : ∀ rd ra, Statement (.shl rd ra) := by unfold Statement; decide +kernel
theorem shr : ∀ rd ra, Statement (.shr rd ra) := by unfold Statement; decide +kernel
theorem add : ∀ rd ra rb, Statement (.add rd ra rb) := by unfold Statement; decide +kernel
theorem sub : ∀ rd ra rb, Statement (.sub rd ra rb) := by unfold Statement; decide +kernel
theorem mul : ∀ rd ra rb, Statement (.mul rd ra rb) := by unfold Statement; decide +kernel
theorem div : ∀ rd ra rb, Statement (.div rd ra rb) := by unfold Statement; decide +kernel
theorem iszero : ∀ ra, Statement (.iszero ra) := by unfold Statement; decide +kernel
theorem eq : ∀ ra rb, Statement (.eq ra rb) := by unfold Statement; decide +kernel
theorem ne : ∀ ra rb, Statement (.ne ra rb) := by unfold Statement; decide +kernel
theorem lt : ∀ ra rb, Statement (.lt ra rb) := by unfold Statement; decide +kernel
theorem gt : ∀ ra rb, Statement (.gt ra rb) := by unfold Statement; decide +kernel

end Sys2Proof.Laws.EncodesRow
end

