-- ==== Sys2Proof/Tests/Slice0.lean ====
section
/-! SUPPORT. The model's own tests. Every expected word, image and response is taken from the spec: the words from the patterns
`ooooodddaaabbbzz` of spec/30_encoding.md R30 to R33, the rest from the vectors of spec/95_test_vectors.md named in each docstring. -/

namespace Sys2Proof.Tests

-- One theorem at a time: each `decide +kernel` below would otherwise hold a thread of its own while it waits for the kernel.
set_option Elab.async false

open Sys2Proof Sys2Proof.Machine

/-! ### Decoding: one word per command, written out bit by bit -/

/-- R33: `00001 ddd 000 000 00` -/
theorem test_decode_ldv : decode 0b0000110000000000#16 = .ok (.ldv 4) := by decide
/-- R33: `00010 000 aaa 000 00` -/
theorem test_decode_rdv : decode 0b0001000001100000#16 = .ok (.rdv 3) := by decide
/-- R33: `00011 000 aaa 000 00` -/
theorem test_decode_getshift : decode 0b0001100000100000#16 = .ok (.getshift 1) := by decide
/-- R33: `00100 000 aaa 000 00` -/
theorem test_decode_getshift32 : decode 0b0010000000100000#16 = .ok (.getshift32 1) := by decide
/-- R33: `00101 ddd aaa 000 00` -/
theorem test_decode_setshift : decode 0b0010110001000000#16 = .ok (.setshift 4 2) := by decide
/-- R33: `00110 000 aaa 000 00` -/
theorem test_decode_decode : decode 0b0011000010000000#16 = .ok (.decode 4) := by decide
/-- R33: `00111 ddd 000 000 00` -/
theorem test_decode_encode : decode 0b0011110100000000#16 = .ok (.encode 5) := by decide
/-- R33: `01000 ddd 000 000 00` -/
theorem test_decode_fromint : decode 0b0100000100000000#16 = .ok (.fromint 1) := by decide
/-- R33: `01001 ddd aaa 000 00` -/
theorem test_decode_shl : decode 0b0100101000100000#16 = .ok (.shl 2 1) := by decide
/-- R33: `01010 ddd aaa 000 00` -/
theorem test_decode_shr : decode 0b0101001000100000#16 = .ok (.shr 2 1) := by decide
/-- R33: `10000 ddd aaa bbb 00` -/
theorem test_decode_add : decode 0b1000001000000100#16 = .ok (.add 2 0 1) := by decide
/-- R33: `10001 ddd aaa bbb 00` -/
theorem test_decode_sub : decode 0b1000110000001100#16 = .ok (.sub 4 0 3) := by decide
/-- R33: `10010 ddd aaa bbb 00` -/
theorem test_decode_mul : decode 0b1001001101000100#16 = .ok (.mul 3 2 1) := by decide
/-- R33: `10011 ddd aaa bbb 00` -/
theorem test_decode_div : decode 0b1001101100101000#16 = .ok (.div 3 1 2) := by decide
/-- R33: `11000 000 aaa 000 00` -/
theorem test_decode_iszero : decode 0b1100000001000000#16 = .ok (.iszero 2) := by decide
/-- R33: `11001 000 aaa bbb 00` -/
theorem test_decode_eq : decode 0b1100100000101000#16 = .ok (.eq 1 2) := by decide
/-- R33: `11010 000 aaa bbb 00` -/
theorem test_decode_ne : decode 0b1101000010000000#16 = .ok (.ne 4 0) := by decide
/-- R33: `11011 000 aaa bbb 00` -/
theorem test_decode_lt : decode 0b1101100010000100#16 = .ok (.lt 4 1) := by decide
/-- R33: `11100 000 aaa bbb 00` -/
theorem test_decode_gt : decode 0b1110000000100000#16 = .ok (.gt 1 0) := by decide

/-- Vectors IL1, IL8: a reserved opcode is refused. -/
theorem test_illegal_reserved_opcode : decode 0x0000#16 = .error .reservedOpcode ∧ decode 0x5800#16 = .error .reservedOpcode ∧
    decode 0xA000#16 = .error .reservedOpcode ∧ decode 0xFFFF#16 = .error .reservedOpcode := by decide
/-- Vectors IL2, IL3: a non-zero `z` is refused. -/
theorem test_illegal_z : decode 0x8205#16 = .error .nonzeroZ ∧ decode 0x0801#16 = .error .nonzeroZ := by decide
/-- Vectors IL4 to IL7, one per format with an unused field: a non-zero unused field is refused. -/
theorem test_illegal_unused_field : decode 0x0820#16 = .error .nonzeroUnusedField ∧ decode 0x1100#16 = .error .nonzeroUnusedField ∧
    decode 0xC900#16 = .error .nonzeroUnusedField ∧ decode 0x4804#16 = .error .nonzeroUnusedField := by decide
/-- The same words fail the check of R34 by mask; their nearest legal neighbours pass it. -/
theorem test_illegal_by_mask : legalWord 0x0000#16 = false ∧ legalWord 0x8205#16 = false ∧ legalWord 0x0820#16 = false ∧
    legalWord 0x1100#16 = false ∧ legalWord 0xC900#16 = false ∧ legalWord 0x4804#16 = false ∧ legalWord 0x8204#16 = true ∧
    legalWord 0x0800#16 = true ∧ legalWord 0x1000#16 = true ∧ legalWord 0xC800#16 = true ∧ legalWord 0x4800#16 = true := by decide

/-! ### One step on a small state -/

/-- `V[0] = a`, `V[1] = b`, the host presents one transaction. -/
def presented (a b : Image) (t : Transaction) : State :=
  { v := #v[a, b, 0, 0, 0, 0, 0, 0], fsr := 0, rsp := Response.zero, txn := ⟨0, 0, 0, 0⟩, host := [.command t], resets := 0 }

/-- The next state of a step, the state itself where there is none. -/
def stepped (s : State) : State :=
  match step s with
  | .next t => t
  | _ => s

/-- Image CD3, (9, 3). -/
def cd3 : Image := 0x80C8
/-- Image CD4, (9, 17). -/
def cd4 : Image := 0x8000480080
/-- Image CD13, the 35 bytes `7F`, outside the image of `encode`. -/
def cd13 : Image := packed fun _ => 0x7F
/-- Image CD9, the value `2^239 - 1`. -/
def cd9 : Image := packed fun i => if i = 0 then 0x01 else 0x7F
/-- Image CD15: its one data bit is padding. -/
def cd15 : Image := packed fun i => if i = 0 then 0x40 else 0x00

/-- P4 line 1: any pattern is loaded as it is. -/
theorem test_ldv_raw : readV (stepped (presented 0 0 ⟨0x0800, 0, 0, -1⟩)) 0 = -1 := by decide +kernel
/-- R51: the stored bits exactly. -/
theorem test_rdv_raw : (stepped (presented cd3 0 ⟨0x1000, 0, 0, 0⟩)).rsp = ⟨.ok, 0x80C8, 0, false⟩ := by decide +kernel
/-- CD18: only byte 0 = 80. -/
theorem test_getshift_top : (stepped (presented (packed fun i => if i = 0 then 0x80 else 0) 0 ⟨0x1800, 0, 0, 0⟩)).rsp =
    ⟨.ok, 0, 17179869184, false⟩ := by decide +kernel
/-- CD19: all bytes FF give 2^35 - 1, of which GETSHIFT32 returns the low 32 bits. -/
theorem test_getshift32_low : (stepped (presented (-1) 0 ⟨0x2000, 0, 0, 0⟩)).rsp = ⟨.ok, 0, 4294967295, false⟩ := by
  decide +kernel
/-- CD20: shift 5 sets bit 7 of bytes 32 and 34. -/
theorem test_setshift_cd20 : readV (stepped (presented cd13 0 ⟨0x2900, 0, 5, 0⟩)) 1 =
    packed (fun i => if i = 32 ∨ i = 34 then 0xFF else 0x7F) := by decide +kernel
/-- CD21: SETSHIFT is not value-preserving. -/
theorem test_setshift_cd21 : readV (stepped (presented cd3 0 ⟨0x2900, 0, 0, 0⟩)) 1 = 0x48 := by decide +kernel
/-- CD4. -/
theorem test_decode_cd4 : (stepped (presented cd4 0 ⟨0x3000, 0, 0, 0⟩)).rsp = ⟨.ok, 9, 17, false⟩ := by decide +kernel
/-- CD17: an arbitrary pattern, byte i = (37*i + 11) mod 256. -/
theorem test_decode_cd17 : decodeImage (packed fun i => BitVec.ofNat 8 (37 * i + 11)) =
    (0x687516c2afa3f1348e6763ea28fb08b6b6012cade51cde06a26f22ef3086, 1893975951) := by decide +kernel
/-- R56's example: ENCODE V5, din=9, sin=17. -/
theorem test_encode_17 : readV (stepped (presented 0 0 ⟨0x3D00, 0, 17, 9⟩)) 5 = cd4 := by decide +kernel
/-- CD5: the one bit of 1 rotates 244 places up to the top data bit. -/
theorem test_encode_cd5 : readV (stepped (presented 0 0 ⟨0x3D00, 0, 244, 1⟩)) 5 =
    packed (fun i => if i = 0 then 0x40 else if 27 ≤ i ∧ i ≤ 30 ∨ i = 32 then 0x80 else 0) := by decide +kernel
/-- CD11: FROMINT with both operands 2^32 - 1. -/
theorem test_fromint_cd11 : readV (stepped (presented 0 0 ⟨0x4200, -1, 4294967295, 0⟩)) 2 =
    packed (fun i => if i < 3 then 0 else if i = 3 then 0x80 else if i ≤ 7 then 0xFF else if i = 8 then 0xF8 else 0x80) := by
  decide +kernel
/-- TG1. -/
theorem test_shl_tg1 : readV (stepped (presented 0x09 0 ⟨0x4900, 0, 3, 0⟩)) 1 = cd3 := by decide +kernel
/-- P4 line 3 (NORM): the padding of 35 bytes FF is cleared. -/
theorem test_shl_norm : readV (stepped (presented (-1) 0 ⟨0x4900, 0, 0, 0⟩)) 1 =
    packed (fun i => if i < 32 then 0xFF else if i = 32 then 0xF8 else if i = 33 then 0x8F else 0xFF) := by decide +kernel
/-- TG4: the shift wraps, it does not saturate. -/
theorem test_shr_tg4 : readV (stepped (presented 0x09 0 ⟨0x5100, 0, 1, 0⟩)) 1 =
    packed (fun i => if i = 32 then 0xC8 else 0x80) := by decide +kernel
/-- AS1. -/
theorem test_add_as1 : readV (stepped (presented 0x0C 0x1E ⟨0x8204, 0, 0, 0⟩)) 2 = 0x2A := by decide +kernel
/-- AS2: the carry out of bit 238 is lost. -/
theorem test_add_as2 : readV (stepped (presented cd9 0x01 ⟨0x8204, 0, 0, 0⟩)) 2 = 0 := by decide +kernel
/-- AS6: the borrow out of bit 238 is lost. -/
theorem test_sub_as6 : readV (stepped (presented 0 0x01 ⟨0x8A04, 0, 0, 0⟩)) 2 = cd9 := by decide +kernel
/-- AS7: the shift of a difference wraps (conflict C3). -/
theorem test_sub_as7 : readV (stepped (presented 0x0A 0x86 ⟨0x8A04, 0, 0, 0⟩)) 2 =
    packed (fun i => if i = 32 then 0xB8 else 0x80) := by decide +kernel
/-- ML1. -/
theorem test_mul_ml1 : readV (stepped (presented 0x07 0x06 ⟨0x9204, 0, 0, 0⟩)) 2 = 0x2A := by decide +kernel
/-- ML5: 2^119 times 2^119 is 2^238. -/
theorem test_mul_ml5 : bsMul (BitVec.ofNat 239 (2 ^ 119)) (BitVec.ofNat 239 (2 ^ 119)) = BitVec.ofNat 239 (2 ^ 238) := by
  decide +kernel
/-- P1 line 3: 100 with shift 4 by 9 with shift 1 is 11 with shift 3. -/
theorem test_div_p1 : readV (stepped (presented 0x800C40 0x92 ⟨0x9A04, 0, 0, 0⟩)) 2 = 0x80D8 := by decide +kernel
/-- DV3c: the divisor's only data bit is padding, so DIV raises and writes nothing. -/
theorem test_div_dv3c : (stepped (presented 0x05 cd15 ⟨0x9A04, 0, 0, 0⟩)).rsp = ⟨.divZero, 0, 0, false⟩ ∧
    (stepped (presented 0x05 cd15 ⟨0x9904, 0, 0, 0⟩)).fsr = 0b01 ∧
    readV (stepped (presented 0x05 cd15 ⟨0x9904, 0, 0, 0⟩)) 1 = cd15 := by decide +kernel
/-- `ISZERO` of CD15 gives 1. -/
theorem test_iszero_cd15 : (stepped (presented cd15 0 ⟨0xC000, 0, 0, 0⟩)).rsp = ⟨.ok, 0, 0, true⟩ := by decide +kernel
/-- CP1: the shift plays no part. -/
theorem test_eq_cp1 : (stepped (presented cd3 cd4 ⟨0xC804, 0, 0, 0⟩)).rsp.tout = true := by decide +kernel
/-- CP6: the padding plays no part. -/
theorem test_ne_cp6 : (stepped (presented cd13 cd9 ⟨0xD004, 0, 0, 0⟩)).rsp.tout = false := by decide +kernel
/-- CP2. -/
theorem test_lt_cp2 : (stepped (presented 0x03 0x09 ⟨0xD804, 0, 0, 0⟩)).rsp.tout = true := by decide +kernel
/-- CP2 and, with the operands swapped, R68's example. -/
theorem test_gt_cp2 : (stepped (presented 0x03 0x09 ⟨0xE004, 0, 0, 0⟩)).rsp.tout = false ∧
    (stepped (presented 0x03 0x09 ⟨0xE020, 0, 0, 0⟩)).rsp.tout = true := by decide +kernel
/-- DV9: the shift of a quotient saturates at 0 (conflict C4). -/
theorem test_shift_dv9 : shiftSaturating 3 5 = 0 ∧ shiftSaturating 5 3 = 2 := by decide
/-- IL1: an illegal word. -/
theorem test_illegal_step : (stepped (presented 1 2 ⟨0x0000, 0, 0, 0⟩)).rsp = ⟨.illegal, 0, 0, false⟩ ∧
    (stepped (presented 1 2 ⟨0x0000, 0, 0, 0⟩)).fsr = 0b10 ∧ readV (stepped (presented 1 2 ⟨0x0000, 0, 0, 0⟩)) 0 = 1 := by
  decide +kernel
/-- From `State.reset` a word placed by `withFetchWord` runs: GETSHIFT of the register it selects is the free draw's shift. -/
theorem test_fetch_from_reset :
    step (State.reset.withFetchWord 16 0x1820) = .next (completeSout (accept State.reset ⟨0x1820, 0, 0, 0⟩ [])
      (getShift (Config.resetImage 0 1))) := rfl
/-- TG8, TG9 and R96's examples. -/
theorem test_decimal : decimalValue 7 "12a3".toList = 123 ∧ decimalValue 32 "4294967296".toList = 0 ∧
    decimalValue 32 "99999999999".toList = 1215752191 := by decide +kernel
/-- TG10: the last two groups of CD3. -/
theorem test_format_cd3 : (formatImage cd3).drop 297 = "10000000 11001000".toList := by decide +kernel

/-! ### Witnesses: the hypotheses of each statement can be met together -/

theorem witness_DecodedWordIsTheEncodedOne : decode 0x8204#16 = .ok (.add 2 0 1) := by decide
theorem witness_StepRunsTheDecodedCommand :
    (presented 0 0 ⟨0x8204, 0, 0, 0⟩).host = .command ⟨0x8204, 0, 0, 0⟩ :: [] ∧ decode 0x8204#16 = .ok (.add 2 0 1) :=
  ⟨rfl, by decide⟩
theorem witness_IllegalWordRaisesIllegalCommand :
    (presented 0 0 ⟨0x8205, 0, 0, 0⟩).host = .command ⟨0x8205, 0, 0, 0⟩ :: [] ∧ legalWord 0x8205#16 = false :=
  ⟨rfl, by decide⟩
theorem witness_ResetEventClearsFsrAndResponse :
    ({ presented 0 0 ⟨0, 0, 0, 0⟩ with fsr := 3, host := [.reset] }).host = .reset :: [] := rfl
theorem witness_RotateRightMovesEveryBit : (0 < 245 ∧ 244 < 245) ∧ rotr245 1 244 = 2 ∧ rotr245 1 0 = 1 := by decide +kernel
theorem witness_RotateLeftInvertsRotateRight : (0 < 245 ∧ 244 < 245) ∧ rotl245 2 244 = 1 ∧ rotl245 1 0 = 1 := by decide +kernel
/-- The index bounds of `SetShiftWritesOnlyShiftBits`, `UnpackDataReadsSevenBitsPerByte`, `PackDataInvertsUnpackData`,
`GetShiftReturnsAllShiftBits` and `CodecWholeNumberForm` at both ends (images CD3 and CD5, spec/95_test_vectors.md). -/
theorem witness_index_bounds : (0 < 35 ∧ 34 < 35) ∧ (0 < 7 ∧ 6 < 7) ∧ (getShift cd3).getLsbD (34 - 34) = true ∧
    (getShift cd3).getLsbD (34 - 0) = false ∧ (unpackData cd3).getMsbD (7 * 34 + 3) = (byteOf cd3 34).getLsbD (6 - 3) ∧
    (unpackData cd15).getMsbD (7 * 0 + 0) = true ∧ (byteOf (encodeImage 9 3) 34).toNat = 0xC8 ∧
    (byteOf (encodeImage 1 244) 0).toNat = 0x40 := by decide +kernel
/-- The index bounds of `FormatWritesTheStoredBits` at both ends (vector TG10). -/
theorem witness_FormatWritesTheStoredBits : (formatImage cd3)[9 * 0 + 0]? = some '0' ∧ (formatImage cd3)[9 * 34 + 1]? = some '1' ∧
    (formatImage cd3)[9 * 34 + 7]? = some '0' ∧ (formatImage cd3)[9 * 33 + 8]? = some ' ' := by decide +kernel
theorem witness_CodecRoundTripLaws : (0#35).toNat % 245 = (245#35).toNat % 245 ∧ (0#35) ≠ 245#35 := by decide
theorem witness_EncodeIsInjectiveOntoItsImage : encodeImage 9 3 = encodeImage 9 3 := rfl
theorem witness_CodecWholeNumberForm : ∃ d r : Nat,
    d = (∑ i ∈ Finset.range 35, (byteOf cd3 i).toNat % 128 * 2 ^ (7 * (34 - i))) ∧
    r = (∑ i ∈ Finset.range 35, ((byteOf cd3 i).getLsbD 7).toNat * 2 ^ (34 - i)) % 245 := ⟨_, _, rfl, rfl⟩
theorem witness_DividerDivides_zero : (0 : CanonicalBits).toNat = 0 := rfl
theorem witness_DividerDivides_nonzero : (1 : CanonicalBits).toNat ≠ 0 := by decide
theorem witness_RemainderFitsTheRegister : (0 < 239 ∧ 238 < 239) ∧ (BitVec.ofNat 239 (2 ^ 238 + 1)).toNat ≠ 0 := by decide +kernel
theorem witness_SetShiftCommandRewritesShiftBits :
    ({ presented cd3 0 ⟨0, 0, 0, 0⟩ with txn := ⟨0x2900, 0, 248, 0⟩ }).txn.sin.toNat % 245 =
      regTag { presented cd3 0 ⟨0, 0, 0, 0⟩ with txn := ⟨0x2900, 0, 248, 0⟩ } 0 % 245 := by decide +kernel
theorem witness_DivDividesOrRaises_nonzero : regValue (presented 100 9 ⟨0x9A04, 0, 0, 0⟩) 1 ≠ 0 := by decide +kernel
theorem witness_DivDividesOrRaises_zero : regValue (presented 100 cd15 ⟨0x9A04, 0, 0, 0⟩) 1 = 0 := by decide +kernel
theorem witness_SubThenAddRestores : (2 : Reg) ≠ 1 := by decide
theorem witness_ShlThenShrRestores : InImage (readV (presented cd3 0 ⟨0x4900, 0, 3, 0⟩) 0) := by
  unfold InImage; decide +kernel
theorem witness_DivZeroRaisedByDivAlone : exec (.div 2 0 1) (presented 5 0 ⟨0x9A04, 0, 0, 0⟩) =
    .next (raise (presented 5 0 ⟨0x9A04, 0, 0, 0⟩) .divisionByZero) := by
  have h : bsDiv (bitsOfReg (presented 5 0 ⟨0x9A04, 0, 0, 0⟩) 0) (bitsOfReg (presented 5 0 ⟨0x9A04, 0, 0, 0⟩) 1) = none := by
    decide +kernel
  simp only [exec, execDiv, h]
theorem witness_RaiseDisturbsNothing : ∃ t, step (presented 1 2 ⟨0, 0, 0, 0⟩) = .next t ∧ t.rsp.status ≠ .ok := ⟨_, rfl, nofun⟩
theorem witness_OneRegisterAtMostIsWritten : ∃ t, step (presented 1 2 ⟨0x0800, 0, 0, 7⟩) = .next t ∧ readV t 0 = 7 :=
  ⟨_, rfl, by decide +kernel⟩
theorem witness_FsrBitsAreSticky : ∃ t, step { presented 1 2 ⟨0x0800, 0, 0, 7⟩ with fsr := 3 } = .next t ∧
    (presented 1 2 ⟨0x0800, 0, 0, 7⟩).host.head? ≠ some .reset ∧ (3#2).getLsbD 1 = true := ⟨_, rfl, nofun, by decide⟩
theorem witness_FsrBitsAreSetByTheirCauseOnly : ∃ t, step (presented 5 0 ⟨0x9A04, 0, 0, 0⟩) = .next t := ⟨_, rfl⟩
theorem witness_NoCommandReadsFsr : ∃ t, exec (.add 0 0 0) (presented 1 2 ⟨0x8000, 0, 0, 0⟩) = .next t := ⟨_, rfl⟩
theorem witness_UnreadPortsAreIgnored : SameReadPorts (.ldv 0) ⟨0x0800, 1, 2, 7⟩ ⟨0x0800, 3, 4, 7⟩ ∧
    ∃ t, exec (.ldv 0) { presented 1 2 ⟨0x0800, 0, 0, 0⟩ with txn := ⟨0x0800, 1, 2, 7⟩ } = .next t :=
  ⟨⟨nofun, nofun, fun _ => rfl⟩, _, rfl⟩
theorem witness_StepKeepsResponseConsistent : ResponseConsistent (presented 5 0 ⟨0x9A04, 0, 0, 0⟩) ∧
    ∃ t, step (presented 5 0 ⟨0x9A04, 0, 0, 0⟩) = .next t :=
  ⟨by simp [ResponseConsistent, presented, Response.zero], _, rfl⟩
theorem witness_StepKeepsRegistersInTheImageOfEncode : CanonicalRun (presented cd3 cd9 ⟨0x8204, 0, 0, 0⟩) ∧
    ∃ t, step (presented cd3 cd9 ⟨0x8204, 0, 0, 0⟩) = .next t := by
  refine ⟨⟨by unfold InImage; decide +kernel, ?_⟩, _, rfl⟩
  intro e he
  have hd : decode 0x8204#16 = .ok (.add 2 0 1) := by decide
  refine ⟨⟨0x8204, 0, 0, 0⟩, by simpa [presented] using he, fun i hi => ?_⟩
  have : (.ok (.add 2 0 1) : Except IllegalReason Instr) = .ok i := hd ▸ hi
  cases this
  rfl

end Sys2Proof.Tests
end

section
/-! PROOFS. What `encode` writes, read back through `getShift` and `unpackData` (R40 to R47), and that every value
written by a command other than LDV and SETSHIFT comes from `encode` (R9). -/

namespace Sys2Proof.Machine

/-! ### The shift bits and the stored data are separate lanes of the image (R41 to R43) -/

theorem getLsbD_byteOf_setShift_seven (x : Image) (s : ShiftAmount) (i : Nat) (h : i < 35) :
    (byteOf (setShift x s) i).getLsbD 7 = s.getLsbD (34 - i) := by
  rw [byteOf_setShift x s i h, BitVec.getLsbD_cons, if_pos rfl]

theorem getLsbD_byteOf_setShift_of_lt (x : Image) (s : ShiftAmount) (i b : Nat) (h : i < 35) (hb : b < 7) :
    (byteOf (setShift x s) i).getLsbD b = (byteOf x i).getLsbD b := by
  simp [byteOf_setShift x s i h, BitVec.getLsbD_cons, hb, show b ≠ 7 by omega]

@[simp] theorem getShift_setShift (x : Image) (s : ShiftAmount) : getShift (setShift x s) = s := by
  apply BitVec.eq_of_getLsbD_eq
  intro k hk
  rw [getShift, getLsbD_seqMsb, getLsbD_byteOf_setShift_seven x s _ (by omega)]
  simp [hk, show 34 - (34 - k) = k by omega]

@[simp] theorem unpackData_setShift (x : Image) (s : ShiftAmount) : unpackData (setShift x s) = unpackData x := by
  apply BitVec.eq_of_getMsbD_eq
  intro j _
  simp only [unpackData, getMsbD_seqMsb, getLsbD_byteOf_setShift_of_lt x s (j / 7) (6 - j % 7) (by omega) (by omega)]

@[simp] theorem unpackData_packData (l : StoredData) : unpackData (packData l) = l := by
  apply BitVec.eq_of_getMsbD_eq
  intro j hj
  rw [unpackData, getMsbD_seqMsb, byteOf_packData l _ (by omega), BitVec.getLsbD_cons, if_neg (by omega), getLsbD_seqMsb]
  simp [hj, show 6 - j % 7 < 7 by omega, show 7 * (j / 7) + (6 - (6 - j % 7)) = j by omega]

/-! ### Rotations (R44, R45) -/

/-- The right rotation undoes the left rotation (R45). -/
theorem rotr245_rotl245 (d : StoredData) (r : Nat) (hr : r < 245) : rotr245 (rotl245 d r) r = d := by
  apply BitVec.eq_of_getMsbD_eq
  intro j hj
  rw [getMsbD_rotr245 _ _ _ hj, getMsbD_rotl245 _ _ _ (Nat.mod_lt _ (by omega)),
    show ((j + (245 - r)) % 245 + r) % 245 = j by omega]

theorem rotationAmount_lt (s : ShiftAmount) : rotationAmount s < 245 := Nat.mod_lt _ (by omega)

/-! ### `encode` read back (R46, R47) -/

@[simp] theorem getShift_encodeImage (c : CanonicalBits) (s : ShiftAmount) : getShift (encodeImage c s) = s :=
  getShift_setShift _ s

@[simp] theorem unpackData_encodeImage (c : CanonicalBits) (s : ShiftAmount) :
    unpackData (encodeImage c s) = rotl245 (padded c) (rotationAmount s) := by
  rw [encodeImage, unpackData_setShift, unpackData_packData]

/-- De-rotating what `encode` wrote gives back its padded array `A`. -/
@[simp] theorem derotated_encodeImage (c : CanonicalBits) (s : ShiftAmount) : derotated (encodeImage c s) = padded c := by
  rw [derotated, getShift_encodeImage, unpackData_encodeImage, rotr245_rotl245 _ _ (rotationAmount_lt s)]

/-- R9: what `encode` writes has zero de-rotated padding. -/
theorem inImage_encodeImage (c : CanonicalBits) (s : ShiftAmount) : InImage (encodeImage c s) := by
  apply BitVec.eq_of_getMsbD_eq
  intro j hj
  rw [getMsbD_paddingOf _ j hj, derotated_encodeImage, getMsbD_padded c j (by omega), if_pos hj]
  simp

/-! ### The commands write through `encode` (R9) -/

theorem exec_host (i : Instr) (s t : State) (h : exec i s = .next t) : t.host = s.host := by
  obtain ⟨rd, x, rfl⟩ | ⟨p, -, rfl⟩ | ⟨-, rfl⟩ := exec_cases i s t h <;> rfl

/-- A command other than LDV and SETSHIFT writes one register through `encode`, or writes none. -/
theorem exec_writes_encodeImage_or_none (i : Instr) (s t : State) (hraw : writesRawImage i = false)
    (h : exec i s = .next t) :
    (∃ rd c a, t = completeWrite s rd (encodeImage c a)) ∨ ∀ r, readV t r = readV s r := by
  cases i with
  | ldv rd | setshift rd ra => cases hraw
  | encode rd | fromint rd | shl rd ra | shr rd ra | add rd ra rb | sub rd ra rb | mul rd ra rb =>
    cases h; exact .inl ⟨_, _, _, rfl⟩
  | div rd ra rb =>
    simp only [exec, execDiv, Host.Outcome.next.injEq] at h
    cases hq : bsDiv (bitsOfReg s ra) (bitsOfReg s rb) with
    | none => exact .inr fun r => by rw [← h, hq, readV_raise]
    | some q => exact .inl ⟨rd, q, _, by rw [← h, hq]⟩
  | rdv ra | getshift ra | getshift32 ra | decode ra | iszero ra | eq ra rb | ne ra rb | lt ra rb | gt ra rb =>
    cases h; exact .inr fun _ => rfl

theorem inImage_completeWrite (s : State) (rd : Reg) (x : Image) (hx : InImage x) (hs : ∀ r, InImage (readV s r)) (r : Reg) :
    InImage (readV (completeWrite s rd x) r) := by
  obtain ⟨hsame, hother, -⟩ := completeWrite_spec s rd x
  by_cases hr : r = rd
  · rw [hr, hsame]; exact hx
  · rw [hother r hr]; exact hs r

theorem exec_keeps_inImage (i : Instr) (s t : State) (hraw : writesRawImage i = false) (h : exec i s = .next t)
    (hs : ∀ r, InImage (readV s r)) (r : Reg) : InImage (readV t r) := by
  obtain ⟨rd, c, a, rfl⟩ | hkeep := exec_writes_encodeImage_or_none i s t hraw h
  · exact inImage_completeWrite s rd _ (inImage_encodeImage c a) hs r
  · rw [hkeep r]; exact hs r

/-! ### The invariant along a step -/

/-- A canonical run holds no reset, and a command it presents next is neither LDV nor SETSHIFT. -/
theorem CanonicalRun.head {s : State} (hs : CanonicalRun s) {e : HostEvent} {rest : List HostEvent}
    (hhost : s.host = e :: rest) : ∃ c, e = .command c ∧ ∀ i, decode c.cmd = .ok i → writesRawImage i = false :=
  hs.2 e (by simp [hhost])

/-- A canonical run stays one when its stream moves on and all registers are still in the image of `encode`. -/
theorem CanonicalRun.tail {s t : State} (hs : CanonicalRun s) {e : HostEvent} (hhost : s.host = e :: t.host)
    (hreg : ∀ r, InImage (readV t r)) : CanonicalRun t :=
  ⟨hreg, fun e' he' => hs.2 e' (by simp [hhost, he'])⟩

/-- Settles O57: a step is idle, a command or a raise (a reset is not in the stream); a command writes only through
`encode`, and a raise writes nothing. -/
theorem stepKeepsRegistersInTheImageOfEncode : Obligations.StepKeepsRegistersInTheImageOfEncode := by
  intro s t hs h
  obtain ⟨-, rfl⟩ | ⟨rest, hhost, -⟩ | ⟨c, rest, i, hhost, hdec, hexec⟩ | ⟨c, rest, e, hhost, -, rfl⟩ := step_cases s t h
  · exact hs
  · obtain ⟨c, hc, -⟩ := hs.head hhost
    cases hc
  · obtain ⟨c', hc, hraw⟩ := hs.head hhost
    cases hc
    have hrest : t.host = rest := exec_host i _ t hexec
    exact hs.tail (hrest ▸ hhost) (exec_keeps_inImage i _ t (hraw i hdec) hexec hs.1)
  · exact hs.tail hhost hs.1

end Sys2Proof.Machine
end

section
/-! PROOFS. The step of R17 and what it can change: one register, one sticky bit, the response (R12, R15, R17). -/

namespace Sys2Proof.Machine

/-! ### The step, one equation per next event of the host (R17) -/

theorem step_of_idle {s : State} (hhost : s.host = []) : step s = .next s := by
  simp [step, hhost]

theorem step_of_reset {s : State} {rest : List HostEvent} (hhost : s.host = .reset :: rest) :
    step s = .next (resetBlock (advanceHost s rest)) := by
  simp [step, hhost]

theorem step_of_decode_ok {s : State} {c : Transaction} {rest : List HostEvent} {i : Instr}
    (hhost : s.host = .command c :: rest) (hdec : decode c.cmd = .ok i) : step s = exec i (accept s c rest) := by
  simp [step, hhost, hdec]

theorem step_of_decode_error {s : State} {c : Transaction} {rest : List HostEvent} {e : IllegalReason}
    (hhost : s.host = .command c :: rest) (hdec : decode c.cmd = .error e) :
    step s = .next (raise (accept s c rest) .illegalCommand) := by
  simp [step, hhost, hdec]

/-- A step on a presented transaction executes the decoded command or raises IllegalCommand. -/
theorem step_command_cases {s t : State} {c : Transaction} {rest : List HostEvent}
    (hhost : s.host = .command c :: rest) (h : step s = .next t) :
    (∃ i, decode c.cmd = .ok i ∧ exec i (accept s c rest) = .next t) ∨
      (∃ e, decode c.cmd = .error e ∧ t = raise (accept s c rest) .illegalCommand) := by
  cases hdec : decode c.cmd with
  | ok i => exact .inl ⟨i, rfl, step_of_decode_ok hhost hdec ▸ h⟩
  | error e =>
    rw [step_of_decode_error hhost hdec] at h
    cases h
    exact .inr ⟨e, rfl, rfl⟩

/-- Every command completes: R17 has no fault and no refusal. -/
theorem exec_total (i : Instr) (s : State) : ∃ t, exec i s = .next t := by
  cases i <;> exact ⟨_, rfl⟩

/-- Settles O5: the equation `step_of_decode_ok`, with `accept` written out. -/
theorem stepRunsTheDecodedCommand : Obligations.StepRunsTheDecodedCommand :=
  fun _ _ _ _ hhost hdec => step_of_decode_ok hhost hdec

/-- Settles O6: each next event of the host has its equation, and every command completes. -/
theorem everyStepHasANextState : Obligations.EveryStepHasANextState := by
  intro s
  match hhost : s.host with
  | [] => exact ⟨_, step_of_idle hhost⟩
  | .reset :: rest => exact ⟨_, step_of_reset hhost⟩
  | .command c :: rest =>
    cases hdec : decode c.cmd with
    | ok i => rw [step_of_decode_ok hhost hdec]; exact exec_total i _
    | error e => exact ⟨_, step_of_decode_error hhost hdec⟩

/-! ### The response agrees with FSR (R15, R114) -/

@[simp] theorem fsrDZ_setSticky (f : BitVec 2) (c : Cause) :
    fsrDZ (setSticky f c) = (fsrDZ f || c == .divisionByZero) := by
  rw [fsrDZ, getLsbD_setSticky, fsrDZ]
  cases c <;> rfl

@[simp] theorem fsrIL_setSticky (f : BitVec 2) (c : Cause) :
    fsrIL (setSticky f c) = (fsrIL f || c == .illegalCommand) := by
  rw [fsrIL, getLsbD_setSticky, fsrIL]
  cases c <;> rfl

theorem responseConsistent_of_ok {s : State} (hok : s.rsp.status = .ok) : ResponseConsistent s := by
  simp [ResponseConsistent, hok]

theorem responseConsistent_raise (s : State) (c : Cause) : ResponseConsistent (raise s c) := by
  cases c <;> simp [ResponseConsistent, causeStatus]

theorem exec_responseConsistent {i : Instr} {s t : State} (h : exec i s = .next t) : ResponseConsistent t := by
  obtain ⟨rd, x, rfl⟩ | ⟨p, hok, rfl⟩ | ⟨-, rfl⟩ := exec_cases i s t h
  · exact responseConsistent_of_ok rfl
  · exact responseConsistent_of_ok hok
  · exact responseConsistent_raise s .divisionByZero

/-- Settles O55: an idle step keeps the response, a reset clears it, and what a command or a raise leaves is consistent
whatever stood there before. -/
theorem stepKeepsResponseConsistent : Obligations.StepKeepsResponseConsistent := by
  intro s t hs h
  obtain ⟨-, rfl⟩ | ⟨rest, -, rfl⟩ | ⟨c, rest, i, -, -, hexec⟩ | ⟨c, rest, e, -, -, rfl⟩ := step_cases s t h
  · exact hs
  · exact responseConsistent_of_ok rfl
  · exact exec_responseConsistent hexec
  · exact responseConsistent_raise _ .illegalCommand

/-- Settles O9: the fields of `State.reset` read off (R18, R110). -/
theorem resetStateIsCleared : Obligations.ResetStateIsCleared := ⟨rfl, rfl, rfl⟩

/-! ### At most one register and one sticky bit (R17, last paragraph) -/

/-- From `s` to `t` at most one register is written and at most one bit of FSR changes, and not both. -/
def OneWriteAtMost (s t : State) : Prop :=
  ∃ rd b, (∀ r, r ≠ rd → readV t r = readV s r) ∧ (∀ k, k ≠ b → t.fsr.getLsbD k = s.fsr.getLsbD k) ∧
    (t.fsr ≠ s.fsr → readV t rd = readV s rd)

theorem WritesOnly.oneWriteAtMost {s t : State} {rd : Reg} {x : Image} (h : WritesOnly s t rd x) : OneWriteAtMost s t := by
  obtain ⟨-, hother, hfsr, -⟩ := h
  exact ⟨rd, 0, hother, fun _ _ => by rw [hfsr], fun hne => absurd hfsr hne⟩

theorem AnswersOnly.oneWriteAtMost {s t : State} {p : Response} (h : AnswersOnly s t p) : OneWriteAtMost s t := by
  obtain ⟨hreg, hfsr, -⟩ := h
  exact ⟨0, 0, fun r _ => hreg r, fun _ _ => by rw [hfsr], fun _ => hreg 0⟩

theorem RaisesOnly.oneWriteAtMost {s t : State} {bit : Nat} {status : Status} (h : RaisesOnly s t bit status) :
    OneWriteAtMost s t := by
  obtain ⟨hreg, hbit, -⟩ := h
  exact ⟨0, bit, fun r _ => hreg r, fun k hk => by simp [hbit k, hk], fun _ => hreg 0⟩

theorem exec_oneWriteAtMost {i : Instr} {s t : State} (h : exec i s = .next t) : OneWriteAtMost s t := by
  obtain ⟨rd, x, rfl⟩ | ⟨p, -, rfl⟩ | ⟨-, rfl⟩ := exec_cases i s t h
  · exact (completeWrite_writesOnly s rd x).oneWriteAtMost
  · exact (respond_answersOnly s p).oneWriteAtMost
  · exact (raise_raisesOnly s .divisionByZero).oneWriteAtMost

/-- Settles O50: accepting the transaction changes neither registers nor FSR, and the command or the raise after it makes
one write at most. -/
theorem oneRegisterAtMostIsWritten : Obligations.OneRegisterAtMostIsWritten := by
  intro s t c rest hhost h
  have hstep : OneWriteAtMost (accept s c rest) t ∧ t.host = rest := by
    obtain ⟨i, -, hexec⟩ | ⟨e, -, rfl⟩ := step_command_cases hhost h
    · exact ⟨exec_oneWriteAtMost hexec, exec_host i _ t hexec⟩
    · exact ⟨(raise_raisesOnly _ .illegalCommand).oneWriteAtMost, rfl⟩
  obtain ⟨⟨rd, b, hreg, hbit, hboth⟩, hrest⟩ := hstep
  exact ⟨rd, b, hreg, hbit, hboth, hrest⟩

/-! ### FSR is sticky (R12) -/

theorem raise_keeps_fsr_bit {s : State} (c : Cause) {b : Nat} (hb : s.fsr.getLsbD b = true) :
    (raise s c).fsr.getLsbD b = true := by
  simp [getLsbD_setSticky, hb]

/-- A command leaves FSR alone, unless it raises DivisionByZero. -/
theorem exec_fsr_cases {i : Instr} {s t : State} (h : exec i s = .next t) :
    t.fsr = s.fsr ∨ ((∃ rd ra rb, i = .div rd ra rb ∧ bsDiv (bitsOfReg s ra) (bitsOfReg s rb) = none) ∧
      t = raise s .divisionByZero) := by
  obtain ⟨rd, x, rfl⟩ | ⟨p, -, rfl⟩ | hraise := exec_cases i s t h
  · exact .inl rfl
  · exact .inl rfl
  · exact .inr hraise

/-- Settles O51: without a reset a step leaves FSR alone or raises, and a raise only sets bits. -/
theorem fsrBitsAreSticky : Obligations.FsrBitsAreSticky := by
  intro s t b h hreset hb
  obtain ⟨-, rfl⟩ | ⟨rest, hhost, -⟩ | ⟨c, rest, i, -, -, hexec⟩ | ⟨c, rest, e, -, -, rfl⟩ := step_cases s t h
  · exact hb
  · exact absurd (by simp [hhost]) hreset
  · obtain hfsr | ⟨-, rfl⟩ := exec_fsr_cases hexec
    · rw [hfsr]; exact hb
    · exact raise_keeps_fsr_bit (s := accept s c rest) .divisionByZero hb
  · exact raise_keeps_fsr_bit (s := accept s c rest) .illegalCommand hb

/-! ### When DIV raises (R60, R85, R100) -/

theorem bsIsZero_iff (a : CanonicalBits) : bsIsZero a = true ↔ a.toNat = 0 := by
  have hbits : bsIsZero a = true ↔ ∀ k < 239, a.getLsbD k = false := by simp [bsIsZero]
  have hzero : a.toNat = 0 ↔ a = 0#239 := by simp [BitVec.toNat_eq]
  rw [hbits, hzero, BitVec.zero_iff_eq_false]
  exact ⟨fun h k => (Nat.lt_or_ge k 239).elim (h k) (BitVec.getLsbD_of_ge a k), fun h k _ => h k⟩

theorem bsDiv_eq_none_iff (a b : CanonicalBits) : bsDiv a b = none ↔ b.toNat = 0 := by
  simp [bsDiv, bsIsZero_iff]

theorem exec_div_of_none {rd ra rb : Reg} {s : State} (hq : bsDiv (bitsOfReg s ra) (bitsOfReg s rb) = none) :
    exec (.div rd ra rb) s = .next (raise s .divisionByZero) := by
  simp only [exec, execDiv, hq]

theorem exec_div_of_some {rd ra rb : Reg} {s : State} {q : CanonicalBits}
    (hq : bsDiv (bitsOfReg s ra) (bitsOfReg s rb) = some q) : exec (.div rd ra rb) s =
      .next (completeWrite s rd (encodeImage q (shiftSaturating (shiftOfReg s ra) (shiftOfReg s rb)))) := by
  simp only [exec, execDiv, hq]

theorem exec_div_of_regValue_eq_zero (rd ra rb : Reg) {s : State} (hzero : regValue s rb = 0) :
    exec (.div rd ra rb) s = .next (raise s .divisionByZero) :=
  exec_div_of_none ((bsDiv_eq_none_iff _ _).2 hzero)

theorem exec_fsrIL {i : Instr} {s t : State} (h : exec i s = .next t) : fsrIL t.fsr = fsrIL s.fsr := by
  obtain hfsr | ⟨-, rfl⟩ := exec_fsr_cases h
  · rw [hfsr]
  · simp

theorem exec_fsrDZ_iff {i : Instr} {s t : State} (h : exec i s = .next t) :
    fsrDZ t.fsr = true ↔ fsrDZ s.fsr = true ∨ ∃ rd ra rb, i = .div rd ra rb ∧ regValue s rb = 0 := by
  constructor
  · intro hdz
    obtain hfsr | ⟨⟨rd, ra, rb, hi, hq⟩, -⟩ := exec_fsr_cases h
    · exact .inl (hfsr ▸ hdz)
    · exact .inr ⟨rd, ra, rb, hi, (bsDiv_eq_none_iff _ _).1 hq⟩
  · rintro (hdz | ⟨rd, ra, rb, rfl, hzero⟩)
    · obtain hfsr | ⟨-, rfl⟩ := exec_fsr_cases h
      · rw [hfsr]; exact hdz
      · simp [hdz]
    · rw [exec_div_of_regValue_eq_zero rd ra rb hzero] at h
      cases h
      simp

/-! ### The decoder accepts exactly the legal words (R31, R34)

A row's mask and the decoder's format test the same fields; both are compared with `unusedFieldsZero`. -/

/-- The register fields of `w` that the format does not use are zero (R31). -/
def unusedFieldsZero (w : CommandWord) : Format → Bool
  | .RRR => true
  | .RR  => rbField w == 0
  | .RD  => raField w == 0 && rbField w == 0
  | .RA  => rdField w == 0 && rbField w == 0
  | .RAB => rdField w == 0

/-- A word is its five fields in order (R30). -/
theorem eq_append_fields (w : CommandWord) : w = opField w ++ rdField w ++ raField w ++ rbField w ++ zField w := by
  apply BitVec.eq_of_getLsbD_eq
  intro k hk
  simp only [opField, rdField, raField, rbField, zField, BitVec.getLsbD_append, BitVec.getLsbD_extractLsb']
  interval_cases k <;> simp

theorem word_ext_iff (w u : CommandWord) : w = u ↔ opField w = opField u ∧ rdField w = rdField u ∧
    raField w = raField u ∧ rbField w = rbField u ∧ zField w = zField u := by
  constructor
  · rintro rfl; exact ⟨rfl, rfl, rfl, rfl, rfl⟩
  · rintro ⟨hop, hrd, hra, hrb, hz⟩
    rw [eq_append_fields w, eq_append_fields u, hop, hrd, hra, hrb, hz]

theorem opField_and_mask (w : CommandWord) (f : Format) : opField (w &&& f.mask) = opField w := by
  have hmask : opField f.mask = BitVec.allOnes 5 := by cases f <;> rfl
  rw [opField, BitVec.extractLsb'_and, ← opField, ← opField, hmask, BitVec.and_allOnes]

theorem zField_and_mask (w : CommandWord) (f : Format) : zField (w &&& f.mask) = zField w := by
  have hmask : zField f.mask = BitVec.allOnes 2 := by cases f <;> rfl
  rw [zField, BitVec.extractLsb'_and, ← zField, ← zField, hmask, BitVec.and_allOnes]

/-- Under its mask a format keeps the register fields it does not use, and clears the others (R31). -/
theorem unusedFieldsZero_iff (w : CommandWord) (f : Format) : unusedFieldsZero w f = true ↔
    rdField (w &&& f.mask) = 0 ∧ raField (w &&& f.mask) = 0 ∧ rbField (w &&& f.mask) = 0 := by
  have hkeep : ∀ x : Reg, x &&& 7#3 = x := by decide
  cases f <;> simp [unusedFieldsZero, Format.mask, rdField, raField, rbField, BitVec.extractLsb'_and, hkeep]

theorem fields_pattern (r : Row) : opField r.pattern = r.op ∧ rdField r.pattern = 0 ∧ raField r.pattern = 0 ∧
    rbField r.pattern = 0 ∧ zField r.pattern = 0 := by
  have hop : ∀ op : BitVec 5, opField (op ++ 0#11) = op ∧ rdField (op ++ 0#11) = 0 ∧ raField (op ++ 0#11) = 0 ∧
      rbField (op ++ 0#11) = 0 ∧ zField (op ++ 0#11) = 0 := by decide
  exact hop r.op

/-- `Row.selects` field by field: the mask keeps the opcode, `z` and the unused fields (R31). -/
theorem selects_eq (r : Row) (w : CommandWord) :
    r.selects w = (opField w == r.op && unusedFieldsZero w r.format && zField w == 0) := by
  obtain ⟨hop, hrd, hra, hrb, hz⟩ := fields_pattern r
  rw [Bool.eq_iff_iff]
  simp only [Row.selects, beq_iff_eq, word_ext_iff, Bool.and_eq_true, unusedFieldsZero_iff, opField_and_mask,
    zField_and_mask, hop, hrd, hra, hrb, hz, and_assoc]

theorem isOk_unusedZero (b : Bool) (i : Instr) : (unusedZero b i).isOk = b := by
  cases b <;> rfl

/-! Each format accepts a word exactly when its unused fields are zero. -/

theorem isOk_formatRRR (w : CommandWord) (c : Reg → Reg → Reg → Instr) :
    (formatRRR w c).isOk = unusedFieldsZero w .RRR := rfl
theorem isOk_formatRR (w : CommandWord) (c : Reg → Reg → Instr) : (formatRR w c).isOk = unusedFieldsZero w .RR :=
  isOk_unusedZero _ _
theorem isOk_formatRD (w : CommandWord) (c : Reg → Instr) : (formatRD w c).isOk = unusedFieldsZero w .RD :=
  isOk_unusedZero _ _
theorem isOk_formatRA (w : CommandWord) (c : Reg → Instr) : (formatRA w c).isOk = unusedFieldsZero w .RA :=
  isOk_unusedZero _ _
theorem isOk_formatRAB (w : CommandWord) (c : Reg → Reg → Instr) : (formatRAB w c).isOk = unusedFieldsZero w .RAB :=
  isOk_unusedZero _ _
theorem isOk_error (e : IllegalReason) : (.error e : Except IllegalReason Instr).isOk = false := rfl

/-- The fields stand for a command exactly when a row has the opcode and its unused fields are zero (R33). -/
theorem isOk_decodeFields (w : CommandWord) :
    (decodeFields w).isOk = opcodeMap.any fun r => opField w == r.op && unusedFieldsZero w r.format := by
  unfold decodeFields
  split
  -- the last branch: the opcode of no row
  case h_20 => simp_all [opcodeMap, isOk_error]
  all_goals
    next hop => simp [hop, opcodeMap, isOk_formatRRR, isOk_formatRR, isOk_formatRD, isOk_formatRA, isOk_formatRAB]

theorem isOk_decode (w : CommandWord) : (decode w).isOk = ((decodeFields w).isOk && zField w == 0) := by
  unfold decode
  split
  · next h => simp [h, isOk_error]
  · cases zField w == 0 <;> simp [isOk_error]

/-- A word decodes exactly when a row selects it (R34). -/
theorem isOk_decode_eq_legalWord (w : CommandWord) : (decode w).isOk = legalWord w := by
  rw [isOk_decode, isOk_decodeFields, legalWord]
  simp only [selects_eq, List.and_any_distrib_right]

theorem legalWord_of_decode_ok {w : CommandWord} {i : Instr} (hdec : decode w = .ok i) : legalWord w = true := by
  rw [← isOk_decode_eq_legalWord, hdec]; rfl

theorem legalWord_of_decode_error {w : CommandWord} {e : IllegalReason} (hdec : decode w = .error e) :
    legalWord w = false := by
  rw [← isOk_decode_eq_legalWord, hdec]; rfl

/-- Settles O52: a legal word sets DZ exactly when it is a DIV by 0 and never IL; an illegal word sets IL and never DZ. -/
theorem fsrBitsAreSetByTheirCauseOnly : Obligations.FsrBitsAreSetByTheirCauseOnly := by
  intro s t c rest hhost h
  obtain ⟨i, hdec, hexec⟩ | ⟨e, hdec, rfl⟩ := step_command_cases hhost h
  · have hlegal := legalWord_of_decode_ok hdec
    have hdz : fsrDZ t.fsr = true ↔ fsrDZ s.fsr = true ∨ ∃ rd ra rb, i = .div rd ra rb ∧ regValue s rb = 0 :=
      exec_fsrDZ_iff (s := accept s c rest) hexec
    have hil : fsrIL t.fsr = fsrIL s.fsr := exec_fsrIL (s := accept s c rest) hexec
    simp [hdz, hil, hdec, hlegal]
  · have hlegal := legalWord_of_decode_error hdec
    simp [hdec, hlegal]

/-! ### What a command reads: registers and its own ports, never FSR (R12, R15, R33) -/

/-- R12: a command runs under any other FSR to the same registers and the same response. -/
theorem exec_with_fsr (i : Instr) (s : State) (f : BitVec 2) : ∃ t u, exec i s = .next t ∧
    exec i { s with fsr := f } = .next u ∧ u.v = t.v ∧ u.rsp = t.rsp := by
  cases i with
  | div rd ra rb =>
    cases hq : bsDiv (bitsOfReg s ra) (bitsOfReg s rb) with
    | none => exact ⟨_, _, exec_div_of_none hq, exec_div_of_none (s := { s with fsr := f }) hq, rfl, rfl⟩
    | some q => exact ⟨_, _, exec_div_of_some hq, exec_div_of_some (s := { s with fsr := f }) hq, rfl, rfl⟩
  | ldv rd | setshift rd ra | encode rd | fromint rd | shl rd ra | shr rd ra | add rd ra rb | sub rd ra rb | mul rd ra rb
  | rdv ra | getshift ra | getshift32 ra | decode ra | iszero ra | eq ra rb | ne ra rb | lt ra rb | gt ra rb =>
    exact ⟨_, _, rfl, rfl, rfl, rfl⟩

/-- Settles O53: the run from `s` is the one `exec_with_fsr` compares with, as `exec` is a function. -/
theorem noCommandReadsFsr : Obligations.NoCommandReadsFsr := by
  intro i s t f h
  obtain ⟨t', u, ht, hu, hv, hrsp⟩ := exec_with_fsr i s f
  obtain rfl : t' = t := Host.Outcome.next.inj (ht.symm.trans h)
  exact ⟨u, hu, fun r => by simp only [readV, hv], hrsp⟩

/-- Settles O54: the commands that read a port find the same operand on it, and the others read registers alone. -/
theorem unreadPortsAreIgnored : Obligations.UnreadPortsAreIgnored := by
  rintro i s t c ⟨hvin, hsin, hdin⟩ h
  have hVin (hr : readsVin i = true) : portVin { s with txn := c } = portVin s := by simp only [portVin, hvin hr]
  have hSin (hr : readsSin i = true) : portSin { s with txn := c } = portSin s := (hsin hr).symm
  have hImage (hr : readsDin i = true) : portImage { s with txn := c } = portImage s := (hdin hr).symm
  have hCanonical (hr : readsDin i = true) : portCanonical { s with txn := c } = portCanonical s := by
    simp only [portCanonical, hdin hr]
  cases i with
  | ldv rd => cases h; simp only [exec, execLdv, hImage rfl]; rfl
  | encode rd => cases h; simp only [exec, execEncode, hCanonical rfl, hSin rfl]; rfl
  | fromint rd => cases h; simp only [exec, execFromint, hVin rfl, hSin rfl]; rfl
  | setshift rd ra => cases h; simp only [exec, execSetshift, hSin rfl]; rfl
  | shl rd ra => cases h; simp only [exec, execShl, retag, hSin rfl]; rfl
  | shr rd ra => cases h; simp only [exec, execShr, retag, hSin rfl]; rfl
  | div rd ra rb =>
    cases hq : bsDiv (bitsOfReg s ra) (bitsOfReg s rb) with
    | none =>
      rw [exec_div_of_none hq] at h
      cases h; exact exec_div_of_none (s := { s with txn := c }) hq
    | some q =>
      rw [exec_div_of_some hq] at h
      cases h; exact exec_div_of_some (s := { s with txn := c }) hq
  | add rd ra rb | sub rd ra rb | mul rd ra rb | rdv ra | getshift ra | getshift32 ra | decode ra | iszero ra | eq ra rb
  | ne ra rb | lt ra rb | gt ra rb =>
    cases h; rfl

end Sys2Proof.Machine
end

section
/-! PROOFS. The decoder and the encoder undo each other: a word is its five fields (R30), and a row fixes which of them name
registers and which are zero (R31, R33). -/

namespace Sys2Proof.Machine

/-! ### A written word read field by field (R30) -/

theorem append_inj {v w : Nat} {a c : BitVec v} {b d : BitVec w} (h : a ++ b = c ++ d) : a = c ∧ b = d :=
  ⟨by simpa only [BitVec.extractLsb'_append_eq_left] using congrArg (BitVec.extractLsb' w v) h,
    by simpa only [BitVec.extractLsb'_append_eq_right] using congrArg (BitVec.extractLsb' 0 w) h⟩

@[simp] theorem fields_commandWord (op : BitVec 5) (rd ra rb : Reg) : opField (commandWord op rd ra rb) = op ∧
    rdField (commandWord op rd ra rb) = rd ∧ raField (commandWord op rd ra rb) = ra ∧
    rbField (commandWord op rd ra rb) = rb ∧ zField (commandWord op rd ra rb) = 0 := by
  obtain ⟨hword, hz⟩ := append_inj (eq_append_fields (commandWord op rd ra rb))
  obtain ⟨hword, hrb⟩ := append_inj hword
  obtain ⟨hword, hra⟩ := append_inj hword
  obtain ⟨hop, hrd⟩ := append_inj hword
  exact ⟨hop.symm, hrd.symm, hra.symm, hrb.symm, hz.symm⟩

theorem commandWord_fields {w : CommandWord} (hz : zField w = 0) :
    commandWord (opField w) (rdField w) (raField w) (rbField w) = w := by
  simp [word_ext_iff, hz]

/-! ### What the decoder answers with (R31, R33) -/

theorem unusedZero_eq_ok_iff (b : Bool) (i j : Instr) : unusedZero b j = .ok i ↔ b = true ∧ j = i := by
  cases b <;> simp [unusedZero]

/-! Each format answers with the command of the fields it uses, when those it does not use are zero. -/

theorem formatRRR_eq_ok_iff (w : CommandWord) (c : Reg → Reg → Reg → Instr) (i : Instr) :
    formatRRR w c = .ok i ↔ unusedFieldsZero w .RRR = true ∧ c (rdField w) (raField w) (rbField w) = i := by
  simp [formatRRR, unusedFieldsZero]

theorem formatRR_eq_ok_iff (w : CommandWord) (c : Reg → Reg → Instr) (i : Instr) :
    formatRR w c = .ok i ↔ unusedFieldsZero w .RR = true ∧ c (rdField w) (raField w) = i :=
  unusedZero_eq_ok_iff _ _ _

theorem formatRD_eq_ok_iff (w : CommandWord) (c : Reg → Instr) (i : Instr) :
    formatRD w c = .ok i ↔ unusedFieldsZero w .RD = true ∧ c (rdField w) = i :=
  unusedZero_eq_ok_iff _ _ _

theorem formatRA_eq_ok_iff (w : CommandWord) (c : Reg → Instr) (i : Instr) :
    formatRA w c = .ok i ↔ unusedFieldsZero w .RA = true ∧ c (raField w) = i :=
  unusedZero_eq_ok_iff _ _ _

theorem formatRAB_eq_ok_iff (w : CommandWord) (c : Reg → Reg → Instr) (i : Instr) :
    formatRAB w c = .ok i ↔ unusedFieldsZero w .RAB = true ∧ c (raField w) (rbField w) = i :=
  unusedZero_eq_ok_iff _ _ _

theorem decode_eq_ok_iff (w : CommandWord) (i : Instr) : decode w = .ok i ↔ decodeFields w = .ok i ∧ zField w = 0 := by
  unfold decode
  split
  · next h => simp [h]
  · by_cases hz : zField w = 0#2 <;> simp [hz]

/-! ### Decoding and encoding (R30, R31, R33) -/

theorem decodeFields_encode (i : Instr) : decodeFields (encode i) = .ok i := by
  cases i with
  | ldv rd | encode rd | fromint rd => simp [encode, decodeFields, formatRD_eq_ok_iff, unusedFieldsZero]
  | rdv ra | getshift ra | getshift32 ra | decode ra | iszero ra =>
    simp [encode, decodeFields, formatRA_eq_ok_iff, unusedFieldsZero]
  | setshift rd ra | shl rd ra | shr rd ra => simp [encode, decodeFields, formatRR_eq_ok_iff, unusedFieldsZero]
  | add rd ra rb | sub rd ra rb | mul rd ra rb | div rd ra rb =>
    simp [encode, decodeFields, formatRRR_eq_ok_iff, unusedFieldsZero]
  | eq ra rb | ne ra rb | lt ra rb | gt ra rb => simp [encode, decodeFields, formatRAB_eq_ok_iff, unusedFieldsZero]

theorem zField_encode (i : Instr) : zField (encode i) = 0 := by
  cases i <;> simp [encode]

/-- Settles O1: every field of the encoded word reads back what was written. -/
theorem decodeReadsBackEveryCommand : Obligations.DecodeReadsBackEveryCommand :=
  fun i => (decode_eq_ok_iff _ i).2 ⟨decodeFields_encode i, zField_encode i⟩

/-- The fields of `w` spell the word of the command they stand for. -/
theorem encode_eq_commandWord_of_decodeFields {w : CommandWord} {i : Instr} (h : decodeFields w = .ok i) :
    encode i = commandWord (opField w) (rdField w) (raField w) (rbField w) := by
  unfold decodeFields at h
  split at h
  -- the last branch: the opcode of no row
  case h_20 => cases h
  all_goals
    next hop =>
      simp only [formatRRR_eq_ok_iff, formatRR_eq_ok_iff, formatRD_eq_ok_iff, formatRA_eq_ok_iff, formatRAB_eq_ok_iff] at h
      obtain ⟨hunused, rfl⟩ := h
      simp_all [encode, unusedFieldsZero]

/-- Settles O2: the fields of `w` spell `encode i`, and a word with `z` zero is its four other fields. -/
theorem decodedWordIsTheEncodedOne : Obligations.DecodedWordIsTheEncodedOne := by
  intro w i hdec
  obtain ⟨hfields, hz⟩ := (decode_eq_ok_iff w i).1 hdec
  rw [encode_eq_commandWord_of_decodeFields hfields, commandWord_fields hz]

/-- Settles O3: `isOk_decode_eq_legalWord`, where an answer that is ok is some command. -/
theorem decodeAcceptsExactlyLegalWords : Obligations.DecodeAcceptsExactlyLegalWords := by
  intro w
  rw [← isOk_decode_eq_legalWord]
  cases decode w with
  | ok i => exact ⟨fun _ => rfl, fun _ => ⟨i, rfl⟩⟩
  | error e => simp [isOk_error]

end Sys2Proof.Machine
end

section
/-! PROOFS. The codec of R40 to R49: an image is its two lanes, the shift bits and the stored data; the rotations and the
padding on sequences and on numbers; the laws of `encode` and `decode`. -/

namespace Sys2Proof.Machine

/-! ### An image is its shift bits and its stored data (R40 to R43) -/

theorem getLsbD_getShift (x : Image) (i : Nat) (h : i < 35) :
    (getShift x).getLsbD (34 - i) = (byteOf x i).getLsbD 7 := by
  rw [getShift, getLsbD_seqMsb]
  simp [show 34 - i < 35 by omega, show 34 - (34 - i) = i by omega]

theorem getMsbD_unpackData_of_byte (x : Image) (i m : Nat) (hi : i < 35) (hm : m < 7) :
    (unpackData x).getMsbD (7 * i + m) = (byteOf x i).getLsbD (6 - m) := by
  rw [unpackData, getMsbD_seqMsb]
  simp [show 7 * i + m < 245 by omega, show (7 * i + m) / 7 = i by omega, show (7 * i + m) % 7 = m by omega]

/-- Two images with the same shift bits and the same stored data are equal. -/
theorem image_ext_lanes {x y : Image} (hshift : getShift x = getShift y) (hdata : unpackData x = unpackData y) : x = y := by
  refine image_ext x y fun i hi => BitVec.eq_of_getLsbD_eq fun b hb => ?_
  by_cases hb7 : b = 7
  · rw [hb7, ← getLsbD_getShift x i hi, ← getLsbD_getShift y i hi, hshift]
  · have hbit (z : Image) : (byteOf z i).getLsbD b = (unpackData z).getMsbD (7 * i + (6 - b)) := by
      rw [getMsbD_unpackData_of_byte z i (6 - b) hi (by omega), show 6 - (6 - b) = b by omega]
    rw [hbit x, hbit y, hdata]

theorem getLsbD_byteOf_packData_seven (l : StoredData) (i : Nat) (h : i < 35) :
    (byteOf (packData l) i).getLsbD 7 = false := by
  rw [byteOf_packData l i h, BitVec.getLsbD_cons, if_pos rfl]

@[simp] theorem getShift_packData (l : StoredData) : getShift (packData l) = 0 := by
  apply BitVec.eq_of_getLsbD_eq
  intro k hk
  rw [show k = 34 - (34 - k) by omega, getLsbD_getShift _ _ (by omega), getLsbD_byteOf_packData_seven l _ (by omega)]
  simp

@[simp] theorem setShift_getShift (x : Image) : setShift x (getShift x) = x :=
  image_ext_lanes (getShift_setShift x _) (unpackData_setShift x _)

/-- Settles O10: bit by bit from the lanes of `setShift`, and its laws from the lanes of the whole image. -/
theorem setShiftWritesOnlyShiftBits : Obligations.SetShiftWritesOnlyShiftBits := fun x s =>
  ⟨fun i hi => ⟨getLsbD_byteOf_setShift_seven x s i hi, fun b hb => getLsbD_byteOf_setShift_of_lt x s i b hi hb⟩,
    getShift_setShift x s, setShift_getShift x, unpackData_setShift x s⟩

/-- Settles O12: `packData` writes the data lane and leaves the other one 0, and the two lanes fix the image. -/
theorem packDataInvertsUnpackData : Obligations.PackDataInvertsUnpackData :=
  ⟨fun l => ⟨unpackData_packData l, fun i hi => getLsbD_byteOf_packData_seven l i hi⟩,
    fun x => image_ext_lanes (by simp) (by simp)⟩

/-! ### The two lanes as numbers (R42, R49) -/

/-- A number of `w * n` bits is the sum of its `n` groups of `w` bits, least significant group first. -/
theorem mod_two_pow_eq_sum_groups (d w n : Nat) :
    d % 2 ^ (w * n) = ∑ i ∈ Finset.range n, (d >>> (w * i)) % 2 ^ w * 2 ^ (w * i) := by
  induction n with
  | zero => simp [Nat.mod_one]
  | succ n ih =>
    rw [Finset.sum_range_succ, ← ih, pow_mul, Nat.mod_pow_succ, ← pow_mul, Nat.shiftRight_eq_div_pow,
      Nat.mul_comm (2 ^ (w * n))]

/-- The same for a word of `w * n` bits, most significant group first, as R42 and R49 count. -/
theorem toNat_eq_sum_groups {k : Nat} (d : BitVec k) (w n : Nat) (hk : k = w * n) :
    d.toNat = ∑ i ∈ Finset.range n, (d.toNat >>> (w * (n - 1 - i))) % 2 ^ w * 2 ^ (w * (n - 1 - i)) := by
  rw [Finset.sum_range_reflect fun i => (d.toNat >>> (w * i)) % 2 ^ w * 2 ^ (w * i), ← mod_two_pow_eq_sum_groups, ← hk,
    Nat.mod_eq_of_lt d.isLt]

/-- The data bits of byte `i` are the `i`-th group of seven of the stored data (R42). -/
theorem toNat_byteOf_mod (x : Image) (i : Nat) (h : i < 35) :
    (byteOf x i).toNat % 128 = ((unpackData x).toNat >>> (7 * (34 - i))) % 128 := by
  have hgroup : (byteOf x i).extractLsb' 0 7 = (unpackData x).extractLsb' (7 * (34 - i)) 7 := by
    apply BitVec.eq_of_getLsbD_eq
    intro b hb
    have hbit := getMsbD_unpackData_of_byte x i (6 - b) h (by omega)
    rw [BitVec.getMsbD, show 245 - 1 - (7 * i + (6 - b)) = 7 * (34 - i) + b by omega,
      show 6 - (6 - b) = b by omega] at hbit
    simpa [hb, show 7 * i + (6 - b) < 245 by omega] using hbit.symm
  simpa [BitVec.extractLsb'_toNat] using congrArg BitVec.toNat hgroup

/-- The stored data as the sum of R42 and R49. -/
theorem toNat_unpackData (x : Image) :
    (unpackData x).toNat = ∑ i ∈ Finset.range 35, (byteOf x i).toNat % 128 * 2 ^ (7 * (34 - i)) := by
  rw [toNat_eq_sum_groups (unpackData x) 7 35 rfl]
  exact Finset.sum_congr rfl fun i hi => by simp [toNat_byteOf_mod x i (Finset.mem_range.1 hi)]

/-- The shift amount as the sum of R49. -/
theorem toNat_getShift (x : Image) :
    (getShift x).toNat = ∑ i ∈ Finset.range 35, ((byteOf x i).getLsbD 7).toNat * 2 ^ (34 - i) := by
  rw [toNat_eq_sum_groups (getShift x) 1 35 rfl]
  refine Finset.sum_congr rfl fun i hi => ?_
  rw [← getLsbD_getShift x i (Finset.mem_range.1 hi), ← BitVec.testBit_toNat, Nat.toNat_testBit, Nat.one_mul,
    Nat.shiftRight_eq_div_pow, Nat.pow_one]

/-- A byte as a number: its shift bit and its group of the stored data. -/
theorem toNat_byteOf (x : Image) (i : Nat) (h : i < 35) : (byteOf x i).toNat =
    ((getShift x).getLsbD (34 - i)).toNat * 128 + ((unpackData x).toNat >>> (7 * (34 - i))) % 128 := by
  have hbit7 : ((byteOf x i).getLsbD 7).toNat = (byteOf x i).toNat / 128 := by
    rw [← BitVec.testBit_toNat, Nat.toNat_testBit]
    omega
  rw [getLsbD_getShift x i h, hbit7, ← toNat_byteOf_mod x i h, Nat.div_add_mod']

/-- Settles O11: element by element, and as the sum of its groups of seven. -/
theorem unpackDataReadsSevenBitsPerByte : Obligations.UnpackDataReadsSevenBitsPerByte := fun x =>
  ⟨fun i hi m hm => getMsbD_unpackData_of_byte x i m hi hm, toNat_unpackData x⟩

/-! ### Rotations: elements, inverses, numbers (R44, R45, R49)

The rotation by `r` of R44 and R45 is the library's rotation of the word, which gives the form on numbers. -/

theorem getMsbD_rotr245_add (d : StoredData) (r j : Nat) (hr : r < 245) (hj : j < 245) :
    (rotr245 d r).getMsbD ((j + r) % 245) = d.getMsbD j := by
  rw [getMsbD_rotr245 d r _ (Nat.mod_lt _ (by omega)), show ((j + r) % 245 + (245 - r)) % 245 = j by omega]

/-- The left rotation undoes the right rotation (R45). -/
theorem rotl245_rotr245 (d : StoredData) (r : Nat) (hr : r < 245) : rotl245 (rotr245 d r) r = d := by
  apply BitVec.eq_of_getMsbD_eq
  intro j hj
  rw [getMsbD_rotl245 _ _ _ hj, getMsbD_rotr245_add d r j hr hj]

theorem rotl245_eq_rotateLeft (a : StoredData) (r : Nat) : rotl245 a r = a.rotateLeft r := by
  apply BitVec.eq_of_getMsbD_eq
  intro j hj
  rw [getMsbD_rotl245 a r j hj, BitVec.getMsbD_rotateLeft, Nat.add_comm r j]
  simp [hj]

theorem rotr245_eq_rotateRight (d : StoredData) (r : Nat) (hr : r < 245) : rotr245 d r = d.rotateRight r := by
  apply BitVec.eq_of_getMsbD_eq
  intro j hj
  rw [getMsbD_rotr245 d r j hj, BitVec.getMsbD_rotateRight, Nat.mod_eq_of_lt hr]
  split
  · simp [hj, show (j + (245 - r)) % 245 = (245 + j - r) % 245 by omega]
  · simp [hj, show (j + (245 - r)) % 245 = j - r by omega]

@[simp] theorem rotr245_zero (d : StoredData) : rotr245 d 0 = d := by
  apply BitVec.eq_of_getMsbD_eq
  intro j hj
  rw [getMsbD_rotr245 d 0 j hj, show (j + (245 - 0)) % 245 = j by omega]

@[simp] theorem rotl245_zero (a : StoredData) : rotl245 a 0 = a := by
  simpa using rotr245_rotl245 a 0 (by omega)

/-- Dropping the bits above `w` after a left shift, or before it. -/
theorem shiftLeft_mod_two_pow (d : Nat) {r w : Nat} (hr : r ≤ w) : (d <<< (w - r)) % 2 ^ w = (d % 2 ^ r) <<< (w - r) := by
  rw [Nat.shiftLeft_eq, Nat.shiftLeft_eq, ← Nat.mul_mod_mul_right, ← pow_add, Nat.add_sub_cancel' hr]

/-- The bits that leave at one end and those that stay do not overlap, so `|||` in the library's rotation is `+`. -/
theorem shiftRight_or_shiftLeft_eq_add {w d r : Nat} (hd : d < 2 ^ w) (hr : r ≤ w) :
    d >>> r ||| (d <<< (w - r)) % 2 ^ w = d >>> r + (d % 2 ^ r) <<< (w - r) := by
  have hlow : d >>> r < 2 ^ (w - r) := by
    rw [Nat.shiftRight_eq_div_pow]
    exact Nat.div_lt_of_lt_mul (by rwa [← pow_add, Nat.add_sub_cancel' hr])
  rw [shiftLeft_mod_two_pow d hr, Nat.add_comm, Nat.shiftLeft_add_eq_or_of_lt hlow, Nat.or_comm]

/-- R44 on numbers. -/
theorem toNat_rotr245 (d : StoredData) (r : Nat) (hr : r < 245) :
    (rotr245 d r).toNat = (d.toNat >>> r) + ((d.toNat % 2 ^ r) <<< (245 - r)) := by
  rw [rotr245_eq_rotateRight d r hr, BitVec.toNat_rotateRight, Nat.mod_eq_of_lt hr,
    shiftRight_or_shiftLeft_eq_add d.isLt hr.le]

/-- R45 on numbers. -/
theorem toNat_rotl245 (a : StoredData) (r : Nat) (hr : r < 245) :
    (rotl245 a r).toNat = (a.toNat <<< r) % 2 ^ 245 + (a.toNat >>> (245 - r)) := by
  have hor := shiftRight_or_shiftLeft_eq_add (r := 245 - r) a.isLt (by omega)
  have hmod := shiftLeft_mod_two_pow a.toNat (r := 245 - r) (w := 245) (by omega)
  rw [show 245 - (245 - r) = r by omega] at hor hmod
  rw [rotl245_eq_rotateLeft, BitVec.toNat_rotateLeft, Nat.mod_eq_of_lt hr, Nat.or_comm, hor, hmod, Nat.add_comm]

/-- `ROR_245` of R49. -/
theorem toNat_rotr245_eq_mod (d : StoredData) (r : Nat) (hr : r < 245) :
    (rotr245 d r).toNat = ((d.toNat >>> r) + (d.toNat <<< (245 - r))) % 2 ^ 245 := by
  rw [← Nat.add_mod_mod, shiftLeft_mod_two_pow _ hr.le, ← toNat_rotr245 d r hr, Nat.mod_eq_of_lt (BitVec.isLt _)]

/-- `ROL_245` of R49. -/
theorem toNat_rotl245_eq_mod (a : StoredData) (r : Nat) (hr : r < 245) :
    (rotl245 a r).toNat = ((a.toNat <<< r) + (a.toNat >>> (245 - r))) % 2 ^ 245 := by
  rw [← Nat.mod_add_mod, ← toNat_rotl245 a r hr, Nat.mod_eq_of_lt (BitVec.isLt _)]

/-- Settles O13: elements by their place, the number form from the library's rotation. -/
theorem rotateRightMovesEveryBit : Obligations.RotateRightMovesEveryBit := fun d r hr =>
  ⟨fun j hj => getMsbD_rotr245_add d r j hr hj, toNat_rotr245 d r hr, rotr245_zero d⟩

/-- Settles O14: elements and numbers as for O13, and each rotation moves an element back where it came from. -/
theorem rotateLeftInvertsRotateRight : Obligations.RotateLeftInvertsRotateRight := fun a r hr =>
  ⟨fun j hj => getMsbD_rotl245 a r j hj, toNat_rotl245 a r hr, rotl245_zero a, rotr245_rotl245 a r hr, rotl245_rotr245 a r hr⟩

/-! ### Canonical bits and padding of a sequence (R46, R47) -/

/-- The array `A` of R47 is the canonical bits zero-extended, as a word. -/
theorem padded_eq_setWidth (c : CanonicalBits) : padded c = c.setWidth 245 := by
  apply BitVec.eq_of_getMsbD_eq
  intro j hj
  rw [getMsbD_padded c j hj, BitVec.getMsbD_setWidth, BitVec.getMsbD]
  by_cases hpad : j < 6
  · simp [hpad, show ¬ 6 ≤ j by omega]
  · simp [hpad, show 6 ≤ j by omega, show j - 6 < 239 by omega, show 238 - (j - 6) = 244 - j by omega]

/-- The canonical bits are the low 239 bits of the de-rotated word. -/
theorem takeCanonical_eq_setWidth (d : StoredData) : takeCanonical d = d.setWidth 239 := by
  apply BitVec.eq_of_getLsbD_eq
  intro k hk
  rw [takeCanonical, getLsbD_seqLsb, BitVec.getMsbD]
  simp [hk, show 244 - k < 245 by omega, show 244 - (244 - k) = k by omega]

@[simp] theorem takeCanonical_padded (c : CanonicalBits) : takeCanonical (padded c) = c := by
  rw [takeCanonical_eq_setWidth, padded_eq_setWidth, BitVec.setWidth_setWidth_of_le _ (by omega), BitVec.setWidth_eq]

theorem takePadding_padded (c : CanonicalBits) : takePadding (padded c) = 0 := by
  apply BitVec.eq_of_getMsbD_eq
  intro j hj
  rw [takePadding, getMsbD_seqMsb, getMsbD_padded c j (by omega), if_pos hj]
  simp

/-- Padding the canonical bits again gives back the sequence exactly when its own padding is zero. -/
theorem padded_takeCanonical_eq_iff (d : StoredData) : padded (takeCanonical d) = d ↔ takePadding d = 0 := by
  refine ⟨fun h => h ▸ takePadding_padded _, fun h => BitVec.eq_of_getMsbD_eq fun j hj => ?_⟩
  rw [getMsbD_padded _ j hj]
  split
  · next hpad =>
    have hbit := congrArg (BitVec.getMsbD · j) h
    simpa [takePadding, hpad] using hbit.symm
  · next hpad => simp [takeCanonical, show 244 - j < 239 by omega, show 244 - (244 - j) = j by omega]

/-! ### The laws of `encode` and `decode` (R46 to R48) -/

/-- The round trip of R48. -/
@[simp] theorem decodeImage_encodeImage (c : CanonicalBits) (s : ShiftAmount) : decodeImage (encodeImage c s) = (c, s) := by
  simp [decodeImage, canonicalOf]

theorem rotl245_derotated (x : Image) : rotl245 (derotated x) (rotationAmount (getShift x)) = unpackData x :=
  rotl245_rotr245 _ _ (rotationAmount_lt _)

/-- R48: decoding and encoding again keeps exactly the images with zero de-rotated padding. -/
theorem encodeImage_decodeImage_eq_iff (x : Image) :
    encodeImage (decodeImage x).1 (decodeImage x).2 = x ↔ InImage x := by
  constructor
  · intro h
    rw [← h]
    exact inImage_encodeImage _ _
  · intro h
    have hpadded : padded (canonicalOf x) = derotated x := (padded_takeCanonical_eq_iff _).2 h
    refine image_ext_lanes (getShift_encodeImage _ _) ?_
    rw [decodeImage, unpackData_encodeImage, hpadded, rotl245_derotated]

/-- Settles O15: all but the last law follow from the round trip, which reads back the lanes that `encode` wrote. -/
theorem codecRoundTripLaws : Obligations.CodecRoundTripLaws :=
  ⟨decodeImage_encodeImage, encodeImage_decodeImage_eq_iff, fun x => decodeImage_encodeImage _ _,
    fun b s u h => by simp only [unpackData_encodeImage, rotationAmount, h]⟩

/-- Settles O16: `decode` is a left inverse of `encode`, and a right inverse on the images with zero padding. -/
theorem encodeIsInjectiveOntoItsImage : Obligations.EncodeIsInjectiveOntoItsImage := by
  refine ⟨fun b s => ⟨getShift_encodeImage b s, ?_⟩, fun b c s u h => ?_, fun x => ⟨?_, fun h => ?_⟩⟩
  · rw [unpackData_encodeImage, padded_eq_setWidth, rotationAmount]
  · simpa using congrArg decodeImage h
  · rintro ⟨b, s, rfl⟩
    exact inImage_encodeImage b s
  · exact ⟨_, _, (encodeImage_decodeImage_eq_iff x).2 h⟩

/-! ### The codec on whole numbers (R46, R49) -/

theorem toNat_canonicalOf (x : Image) : (canonicalOf x).toNat =
    (rotr245 (unpackData x) (rotationAmount (getShift x))).toNat % 2 ^ 239 := by
  rw [canonicalOf, takeCanonical_eq_setWidth, BitVec.toNat_setWidth, derotated]

/-- Settles O17: the sums are the two lanes as numbers, `ROR_245` and `ROL_245` the two rotations, and a byte is its bit of
each lane. -/
theorem codecWholeNumberForm : Obligations.CodecWholeNumberForm := by
  refine ⟨fun x d r hd hr => ?_, toNat_getShift, fun v s r i hr hi => ?_⟩
  · rw [← toNat_unpackData] at hd
    rw [← toNat_getShift] at hr
    rw [decodeImage, toNat_canonicalOf, toNat_rotr245_eq_mod _ _ (rotationAmount_lt _), rotationAmount, ← hr, hd]
  · have hv : (padded v).toNat = v.toNat := by
      rw [padded_eq_setWidth, BitVec.toNat_setWidth_of_le (by omega)]
    rw [toNat_byteOf _ i hi, getShift_encodeImage, unpackData_encodeImage, toNat_rotl245_eq_mod _ _ (rotationAmount_lt s), hv,
      rotationAmount, ← hr]

end Sys2Proof.Machine
end

section
/-! PROOFS. The codec commands (R50 to R56): the word as its fields written side by side in a number (R30), the result, and
the frame of a completed command. -/

namespace Sys2Proof.Machine

/-! ### A command word as a number (R30, R31) -/

theorem toNat_commandWord (op : BitVec 5) (rd ra rb : Reg) : (commandWord op rd ra rb).toNat =
    (op.toNat <<< 11) + (rd.toNat <<< 8) + (ra.toNat <<< 5) + (rb.toNat <<< 2) := by
  have happend {v w : Nat} (x : BitVec v) (y : BitVec w) : (x ++ y).toNat = x.toNat * 2 ^ w + y.toNat := by
    rw [BitVec.toNat_append, ← Nat.shiftLeft_add_eq_or_of_lt y.isLt, Nat.shiftLeft_eq]
  simp only [commandWord, happend, Nat.shiftLeft_eq, BitVec.toNat_ofNat]
  omega

/-- A word given as a number decodes to the command whose encoding has that number. -/
theorem decode_ofNat {n : Nat} {i : Instr} (hn : (encode i).toNat = n) : decode (BitVec.ofNat 16 n) = .ok i := by
  rw [← hn, BitVec.ofNat_toNat, BitVec.setWidth_eq]
  exact decodeReadsBackEveryCommand i

/-- Settles O4: each word is the one that the encoder writes for its command. -/
theorem specWordsDecodeAsNamed : Obligations.SpecWordsDecodeAsNamed :=
  ⟨decode_ofNat (i := .ldv 4) rfl, decode_ofNat (i := .getshift 1) rfl, decode_ofNat (i := .setshift 1 0) rfl,
    decode_ofNat (i := .encode 5) rfl, decode_ofNat (i := .shr 2 1) rfl, decode_ofNat (i := .sub 4 0 3) rfl,
    decode_ofNat (i := .div 2 0 1) rfl, decode_ofNat (i := .gt 1 0) rfl⟩

/-! ### Raw load and read, shift bits (R50 to R53) -/

/-- Settles O26: LDV completes by writing the port's image as it is. -/
theorem ldvLoadsDin : Obligations.LdvLoadsDin := fun rd s =>
  ⟨decode_ofNat (by simp [encode, toNat_commandWord]), _, rfl, completeWrite_writesOnly s rd _⟩

/-- Settles O27: RDV completes by answering with the register's image as it is. -/
theorem rdvReturnsTheStoredBits : Obligations.RdvReturnsTheStoredBits := fun ra s =>
  ⟨decode_ofNat (by simp [encode, toNat_commandWord]), _, rfl, respond_answersOnly s _⟩

/-- Settles O28: bit 7 of byte `i` is bit `279 - 8*i` of the register image. -/
theorem getShiftReturnsAllShiftBits : Obligations.GetShiftReturnsAllShiftBits := by
  refine fun ra s => ⟨decode_ofNat (by simp [encode, toNat_commandWord]), _, _, rfl, respond_answersOnly s _, fun i hi => ?_⟩
  rw [getLsbD_getShift _ i hi, getLsbD_byteOf, show 272 - 8 * i + 7 = 279 - 8 * i by omega]
  simp

theorem toNat_low32 (s : ShiftAmount) : (low32 s).toNat = s.toNat % 2 ^ 32 := by
  rw [low32, BitVec.toNat_setWidth_of_le (by omega), BitVec.toNat_setWidth]

/-- Settles O29: truncating to 32 bits and extending again is the remainder modulo `2^32`. -/
theorem getShift32ReturnsLow32Bits : Obligations.GetShift32ReturnsLow32Bits := fun ra s =>
  ⟨decode_ofNat (by simp [encode, toNat_commandWord]), _, _, rfl, respond_answersOnly s _, toNat_low32 _⟩

/-! ### SETSHIFT, DECODE and ENCODE (R54 to R56) -/

/-- New shift bits with the old rotation amount leave the value alone (R54). -/
theorem valueOf_setShift (x : Image) (s : ShiftAmount) (h : s.toNat % 245 = tagOf x % 245) :
    valueOf (setShift x s) = valueOf x := by
  have hamount : rotationAmount s = rotationAmount (getShift x) := h
  simp only [valueOf, decodeImage, toNat_canonicalOf, getShift_setShift, unpackData_setShift, hamount]

/-- Settles O30: the bits are those of `setShift` (O10), the value that of the unchanged data under the same rotation. -/
theorem setShiftCommandRewritesShiftBits : Obligations.SetShiftCommandRewritesShiftBits := by
  intro rd ra s
  obtain ⟨hbits, -⟩ := setShiftWritesOnlyShiftBits (readV s ra) s.txn.sin
  exact ⟨decode_ofNat (by simp [encode, toNat_commandWord]), _, _, rfl, completeWrite_writesOnly s rd _, hbits,
    valueOf_setShift _ _⟩

theorem toNat_canonicalOnPort (c : CanonicalBits) : (canonicalOnPort c).toNat = c.toNat :=
  BitVec.toNat_setWidth_of_le (by omega)

/-- Settles O31: the canonical bits are the low 239 bits of the de-rotated data, and the port is wide enough for them. -/
theorem decodeCommandReturnsValueAndShift : Obligations.DecodeCommandReturnsValueAndShift := by
  refine fun ra s => ⟨decode_ofNat (by simp [encode, toNat_commandWord]), _, _, rfl, respond_answersOnly s _, ?_⟩
  rw [toNat_canonicalOnPort, bitsOfReg, decodeImage, toNat_canonicalOf, rotationAmount]

@[simp] theorem valueOf_encodeImage (c : CanonicalBits) (s : ShiftAmount) : valueOf (encodeImage c s) = c.toNat := by
  rw [valueOf, decodeImage_encodeImage]

@[simp] theorem tagOf_encodeImage (c : CanonicalBits) (s : ShiftAmount) : tagOf (encodeImage c s) = s.toNat := by
  rw [tagOf, decodeImage_encodeImage]

/-- Settles O32: the port's low 239 bits and `sin` are what the stored image decodes to. -/
theorem encodeCommandStoresTheImage : Obligations.EncodeCommandStoresTheImage := by
  refine fun rd s => ⟨decode_ofNat (by simp [encode, toNat_commandWord]), _, _, rfl, completeWrite_writesOnly s rd _, ?_,
    tagOf_encodeImage _ _, inImage_encodeImage _ _⟩
  rw [valueOf_encodeImage, portCanonical, BitVec.toNat_setWidth]

end Sys2Proof.Machine
end

section
/-! PROOFS. The comparator compares unsigned values (R60 to R62), and the comparison commands answer with the comparison of
the register values (R64 to R68). -/

namespace Sys2Proof.Machine

/-! ### The comparator (R60 to R62) -/

theorem bsIsZero_eq_decide (a : CanonicalBits) : bsIsZero a = decide (a.toNat = 0) := by
  rw [Bool.eq_iff_iff, bsIsZero_iff, decide_eq_true_iff]

theorem bsEqual_iff (a b : CanonicalBits) : bsEqual a b = true ↔ a.toNat = b.toNat := by
  have hbits : bsEqual a b = true ↔ ∀ k < 239, a.getLsbD k = b.getLsbD k := by simp [bsEqual]
  rw [hbits, ← BitVec.toNat_eq]
  exact ⟨BitVec.eq_of_getLsbD_eq, fun h _ _ => h ▸ rfl⟩

theorem bsEqual_eq_decide (a b : CanonicalBits) : bsEqual a b = decide (a.toNat = b.toNat) := by
  rw [Bool.eq_iff_iff, bsEqual_iff, decide_eq_true_iff]

theorem not_bsEqual_eq_decide (a b : CanonicalBits) : (!bsEqual a b) = decide (a.toNat ≠ b.toNat) := by
  rw [bsEqual_eq_decide, ← decide_not]

/-- The low `n + 1` bits of a sequence spell its low `n` bits and bit `n`. -/
theorem toNat_mod_two_pow_succ (a : CanonicalBits) (n : Nat) :
    a.toNat % 2 ^ (n + 1) = a.toNat % 2 ^ n + 2 ^ n * (a.getLsbD n).toNat := by
  rw [Nat.mod_pow_succ, BitVec.getLsbD, Nat.toNat_testBit]

/-- The scan from bit `n - 1` down compares the numbers that the low `n` bits spell: a differing top bit outweighs all bits
below it, and an equal one leaves the comparison to them. -/
theorem lessThanScan_eq_decide (a b : CanonicalBits) (n : Nat) :
    lessThanScan a b n = decide (a.toNat % 2 ^ n < b.toNat % 2 ^ n) := by
  induction n with
  | zero => simp [lessThanScan, Nat.mod_one]
  | succ n ih =>
    have ha : a.toNat % 2 ^ n < 2 ^ n := Nat.mod_lt _ (Nat.two_pow_pos n)
    have hb : b.toNat % 2 ^ n < 2 ^ n := Nat.mod_lt _ (Nat.two_pow_pos n)
    rw [lessThanScan, ih, toNat_mod_two_pow_succ, toNat_mod_two_pow_succ]
    by_cases hbit : a.getLsbD n = b.getLsbD n
    · simp [hbit]
    · have hflip : a.getLsbD n = !b.getLsbD n := Bool.eq_not_of_ne hbit
      rw [hflip]
      cases b.getLsbD n with
      | false => simp; omega
      | true => simp; omega

theorem bsLessThan_eq_decide (a b : CanonicalBits) : bsLessThan a b = decide (a.toNat < b.toNat) := by
  rw [bsLessThan, lessThanScan_eq_decide, Nat.mod_eq_of_lt a.isLt, Nat.mod_eq_of_lt b.isLt]

/-- Settles O18: the two scans for agreement are equality of the words, the third compares from the top bit down. -/
theorem comparatorComparesValues : Obligations.ComparatorComparesValues := fun a b =>
  ⟨bsIsZero_eq_decide a, bsEqual_eq_decide a b, bsLessThan_eq_decide a b⟩

/-! ### The comparison commands (R64 to R68)

`regValue s r` is by definition the number that `bitsOfReg s r` spells, so each comparator law speaks of register values. -/

/-- Completing with the truth value of `p` answers `p` and changes only the response outputs. -/
theorem completeTout_answersOnly (s : State) {b : Bool} {p : Prop} [Decidable p] (h : b = decide p) :
    AnswersOnly s (completeTout s b) ⟨.ok, 0, 0, decide p⟩ :=
  h ▸ respond_answersOnly s _

/-- Settles O40: ISZERO answers with the zero test of the canonical bits. -/
theorem isZeroTestsTheValue : Obligations.IsZeroTestsTheValue := fun ra s =>
  ⟨decode_ofNat (by simp [encode, toNat_commandWord]), _, rfl, completeTout_answersOnly s (bsIsZero_eq_decide (bitsOfReg s ra))⟩

/-- Settles O41: EQ answers with the equality of the canonical bits. -/
theorem eqComparesValues : Obligations.EqComparesValues := fun ra rb s =>
  ⟨decode_ofNat (by simp [encode, toNat_commandWord]), _, rfl,
    completeTout_answersOnly s (bsEqual_eq_decide (bitsOfReg s ra) (bitsOfReg s rb))⟩

/-- Settles O42: NE answers with the negation of what EQ answers. -/
theorem neIsTheComplementOfEq : Obligations.NeIsTheComplementOfEq := fun ra rb s =>
  ⟨decode_ofNat (by simp [encode, toNat_commandWord]), _, rfl,
    completeTout_answersOnly s (not_bsEqual_eq_decide (bitsOfReg s ra) (bitsOfReg s rb))⟩

/-- Settles O43: LT answers with the order that the scan from the top bit down finds. -/
theorem ltComparesUnsigned : Obligations.LtComparesUnsigned := fun ra rb s =>
  ⟨decode_ofNat (by simp [encode, toNat_commandWord]), _, rfl,
    completeTout_answersOnly s (bsLessThan_eq_decide (bitsOfReg s ra) (bitsOfReg s rb))⟩

/-- Settles O44: GT answers with the same order, its operands swapped. -/
theorem gtComparesUnsigned : Obligations.GtComparesUnsigned := fun ra rb s =>
  ⟨decode_ofNat (by simp [encode, toNat_commandWord]), _, rfl,
    completeTout_answersOnly s (bsLessThan_eq_decide (bitsOfReg s rb) (bitsOfReg s ra))⟩

end Sys2Proof.Machine
end

section
/-! PROOFS. The ripple adder and the ripple subtractor are `+` and `-` modulo `2^239` (R71, R72, R75), and ADD and SUB carry
both to the register values and the shift amounts (R70, R73, R74). -/

namespace Sys2Proof.Machine

/-! ### The adder (R71) -/

/-- One bit of the adder: the sum bit and the carry out spell the sum of the three bits that enter. -/
theorem sumBit_add_two_mul_majority (x y c : Bool) :
    (x ^^ y ^^ c).toNat + 2 * (majority x y c).toNat = x.toNat + y.toNat + c.toNat := by
  revert x y c; decide

/-- The sum bits so far and the carry, which weighs `2^n`, spell the sum of the low `n` bits of the operands. -/
theorem addRipple_spec (a b : CanonicalBits) (n : Nat) :
    (addRipple a b n).1.toNat + 2 ^ n * (addRipple a b n).2.toNat = a.toNat % 2 ^ n + b.toNat % 2 ^ n := by
  induction n with
  | zero => simp [addRipple, Nat.mod_one]
  | succ n ih =>
    have hbit := sumBit_add_two_mul_majority (a.getLsbD n) (b.getLsbD n) (addRipple a b n).2
    rw [toNat_mod_two_pow_succ, toNat_mod_two_pow_succ, addRipple, BitVec.toNat_cons', Nat.shiftLeft_eq]
    linear_combination ih + 2 ^ n * hbit

/-- Without the carry out of bit 238 the ripple adder is the addition of words. -/
@[simp] theorem bsAdd_eq_add (a b : CanonicalBits) : bsAdd a b = a + b := by
  have hsum := addRipple_spec a b 239
  rw [Nat.mod_eq_of_lt a.isLt, Nat.mod_eq_of_lt b.isLt] at hsum
  apply BitVec.eq_of_toNat_eq
  rw [BitVec.toNat_add, ← hsum, Nat.add_mul_mod_self_left, bsAdd, Nat.mod_eq_of_lt (BitVec.isLt _)]

/-- Settles O19: the ripple adder is the addition of words. -/
theorem adderAddsModulo : Obligations.AdderAddsModulo := fun a b => by
  rw [bsAdd_eq_add, BitVec.toNat_add]

/-! ### The subtractor (R72) -/

/-- One bit of the subtractor: the borrow out is what the difference bit and the two subtracted bits lack. -/
theorem differenceBit_add_eq_add_borrowOut (x y w : Bool) :
    (x ^^ y ^^ w).toNat + y.toNat + w.toNat = x.toNat + 2 * (borrowOut x y w).toNat := by
  revert x y w; decide

/-- The difference bits so far give back the low `n` bits of `a` when those of `b` are added, except for the borrow, which
weighs `2^n`. -/
theorem subRipple_spec (a b : CanonicalBits) (n : Nat) :
    (subRipple a b n).1.toNat + b.toNat % 2 ^ n = a.toNat % 2 ^ n + 2 ^ n * (subRipple a b n).2.toNat := by
  induction n with
  | zero => simp [subRipple, Nat.mod_one]
  | succ n ih =>
    have hbit := differenceBit_add_eq_add_borrowOut (a.getLsbD n) (b.getLsbD n) (subRipple a b n).2
    rw [toNat_mod_two_pow_succ, toNat_mod_two_pow_succ, subRipple, BitVec.toNat_cons', Nat.shiftLeft_eq]
    linear_combination ih + 2 ^ n * hbit

/-- Without the borrow out of bit 238 the ripple subtractor is the subtraction of words. -/
@[simp] theorem bsSub_eq_sub (a b : CanonicalBits) : bsSub a b = a - b := by
  have hdiff := subRipple_spec a b 239
  rw [Nat.mod_eq_of_lt a.isLt, Nat.mod_eq_of_lt b.isLt] at hdiff
  refine eq_sub_of_add_eq (BitVec.eq_of_toNat_eq ?_)
  rw [BitVec.toNat_add, bsSub, hdiff, Nat.add_mul_mod_self_left, Nat.mod_eq_of_lt a.isLt]

/-- The difference of words is the difference on integers with the mathematical remainder. -/
theorem toNat_sub_eq_emod {w : Nat} (x y : BitVec w) :
    ((x - y).toNat : Int) = ((x.toNat : Int) - (y.toNat : Int)) % 2 ^ w := by
  rw [BitVec.toNat_sub, Int.natCast_mod, Nat.cast_add, Nat.cast_sub y.isLt.le, Nat.cast_pow, Nat.cast_ofNat,
    show (2 ^ w - y.toNat + x.toNat : Int) = x.toNat - y.toNat + 2 ^ w by ring, Int.add_emod_right]

/-- Settles O20: the ripple subtractor is the subtraction of words. -/
theorem subtractorSubtractsModulo : Obligations.SubtractorSubtractsModulo := fun a b => by
  rw [bsSub_eq_sub, toNat_sub_eq_emod]

/-- Settles O24: words of 239 bits are a commutative group under `+` and `-`. -/
theorem adderSubtractorLaws : Obligations.AdderSubtractorLaws := by
  intro a b c
  simp only [bsAdd_eq_add, bsSub_eq_sub]
  exact ⟨add_comm a b, add_assoc a b c, add_sub_cancel_right a b, sub_add_cancel a b, by rw [zero_sub, sub_eq_add_neg]⟩

/-! ### ADD and SUB (R70, R73, R74)

`regValue s r` and `regTag s r` are by definition the numbers of `bitsOfReg s r` and `shiftOfReg s r`. -/

/-- The common data path leaves an image in the image of `encode`, with the combined bits and the combined shift (R70). -/
theorem binop_spec (f : CanonicalBits → CanonicalBits → CanonicalBits) (g : ShiftAmount → ShiftAmount → ShiftAmount)
    (s : State) (ra rb : Reg) : valueOf (binop f g s ra rb) = (f (bitsOfReg s ra) (bitsOfReg s rb)).toNat ∧
      tagOf (binop f g s ra rb) = (g (shiftOfReg s ra) (shiftOfReg s rb)).toNat ∧ InImage (binop f g s ra rb) :=
  ⟨valueOf_encodeImage _ _, tagOf_encodeImage _ _, inImage_encodeImage _ _⟩

/-- The shift rule of ADD, MUL and SHL on numbers. -/
theorem toNat_shiftSum (sa sb : ShiftAmount) : (shiftSum sa sb).toNat = (sa.toNat + sb.toNat) % 2 ^ 35 :=
  BitVec.toNat_add sa sb

/-- The shift rule of SUB and SHR on numbers: it wraps. -/
theorem toNat_shiftDifference (sa sb : ShiftAmount) :
    ((shiftDifference sa sb).toNat : Int) = ((sa.toNat : Int) - (sb.toNat : Int)) % 2 ^ 35 :=
  toNat_sub_eq_emod sa sb

/-- Settles O36: the data path with the adder's law on the bits and the sum on the shifts. -/
theorem addAddsValuesAndTags : Obligations.AddAddsValuesAndTags := by
  intro rd ra rb s
  obtain ⟨hvalue, htag, himage⟩ := binop_spec bsAdd shiftSum s ra rb
  exact ⟨decode_ofNat (by simp [encode, toNat_commandWord]), _, _, rfl, completeWrite_writesOnly s rd _,
    hvalue.trans (adderAddsModulo _ _), htag.trans (toNat_shiftSum _ _), himage⟩

/-- Settles O37: the data path with the subtractor's law on the bits and the wrapping difference on the shifts. -/
theorem subSubtractsValuesAndTags : Obligations.SubSubtractsValuesAndTags := by
  intro rd ra rb s
  obtain ⟨hvalue, htag, himage⟩ := binop_spec bsSub shiftDifference s ra rb
  exact ⟨decode_ofNat (by simp [encode, toNat_commandWord]), _, _, rfl, completeWrite_writesOnly s rd _,
    (congrArg Nat.cast hvalue).trans (subtractorSubtractsModulo _ _),
    (congrArg Nat.cast htag).trans (toNat_shiftDifference _ _), himage⟩

/-! ### SUB, then ADD of the same register (R75) -/

@[simp] theorem readV_completeWrite_same (s : State) (rd : Reg) (x : Image) : readV (completeWrite s rd x) rd = x := by
  obtain ⟨hsame, -⟩ := completeWrite_spec s rd x
  exact hsame

theorem readV_completeWrite_other {s : State} {rd r : Reg} {x : Image} (h : r ≠ rd) :
    readV (completeWrite s rd x) r = readV s r := by
  obtain ⟨-, hother, -⟩ := completeWrite_spec s rd x
  exact hother r h

/-- Settles O45: ADD finds in `V[rd]` the bits and the shift that SUB encoded, in `V[rb]` what SUB took away, and adding
undoes subtracting on both. -/
theorem subThenAddRestores : Obligations.SubThenAddRestores := by
  intro rd ra rb s hne
  refine ⟨_, _, rfl, rfl, ?_⟩
  rw [readV_completeWrite_same]
  simp only [binop, bitsOfReg, shiftOfReg, readV_completeWrite_same, readV_completeWrite_other hne.symm,
    decodeImage_encodeImage, bsAdd_eq_add, bsSub_eq_sub, shiftSum, shiftDifference, sub_add_cancel]

end Sys2Proof.Machine
end

section
/-! PROOFS. The shift-and-add loop is `*` modulo `2^239` (R80, R81), and MUL carries it to the register values (R70, R82). -/

namespace Sys2Proof.Machine

/-! ### The multiplier (R80, R81) -/

/-- Shifting left truncates the product with `2^n` to the width. -/
theorem shiftLeft_eq_mul_ofNat_two_pow (a : CanonicalBits) (n : Nat) : a <<< n = a * BitVec.ofNat 239 (2 ^ n) :=
  BitVec.eq_of_toNat_eq (by simp [Nat.shiftLeft_eq])

/-- The accumulator after `n` bits holds the left operand times the number that the low `n` bits of the right operand
spell; a set bit `n` adds the left operand once more, with the weight `2^n`. -/
theorem mulAccumulate_eq_mul (a b : CanonicalBits) (n : Nat) :
    mulAccumulate a b n = a * BitVec.ofNat 239 (b.toNat % 2 ^ n) := by
  induction n with
  | zero => simp [mulAccumulate, Nat.mod_one]
  | succ n ih =>
    rw [mulAccumulate, ih, toNat_mod_two_pow_succ]
    cases b.getLsbD n with
    | false => simp
    | true =>
      rw [if_pos rfl, bsAdd_eq_add, shiftLeft_eq_mul_ofNat_two_pow, ← mul_add, ← BitVec.ofNat_add, Bool.toNat_true, mul_one]

/-- After all 239 bits the accumulator holds the product of words. -/
@[simp] theorem bsMul_eq_mul (a b : CanonicalBits) : bsMul a b = a * b := by
  rw [bsMul, mulAccumulate_eq_mul, Nat.mod_eq_of_lt b.isLt, BitVec.ofNat_toNat, BitVec.setWidth_eq]

/-- Settles O21: the shift-and-add loop is the multiplication of words. -/
theorem multiplierMultipliesModulo : Obligations.MultiplierMultipliesModulo := fun a b => by
  rw [bsMul_eq_mul, BitVec.toNat_mul]

/-- Settles O25: words of 239 bits are a commutative ring under `+` and `*`. -/
theorem multiplierLaws : Obligations.MultiplierLaws := by
  intro a b c
  simp only [bsMul_eq_mul, bsAdd_eq_add]
  exact ⟨mul_comm a b, mul_assoc a b c, mul_add a b c⟩

/-! ### MUL (R70, R82) -/

/-- Settles O38: the data path with the multiplier's law on the bits and the sum on the shifts. -/
theorem mulMultipliesValuesAndAddsTags : Obligations.MulMultipliesValuesAndAddsTags := by
  intro rd ra rb s
  obtain ⟨hvalue, htag, himage⟩ := binop_spec bsMul shiftSum s ra rb
  exact ⟨decode_ofNat (by simp [encode, toNat_commandWord]), _, _, rfl, completeWrite_writesOnly s rd _,
    hvalue.trans (multiplierMultipliesModulo _ _), htag.trans (toNat_shiftSum _ _), himage⟩

end Sys2Proof.Machine
end

section
/-! PROOFS. The restoring division loop is `/` on the values, with a remainder that fits its register (R85, R86), and DIV
carries it to the register values or raises (R87, R100). -/

namespace Sys2Proof.Machine

/-! ### The divider (R85, R86) -/

/-- The bits from `k` up are those from `k + 1` up, with bit `k` brought in below them. -/
theorem toNat_div_two_pow_eq (a : CanonicalBits) (k : Nat) :
    a.toNat / 2 ^ k = 2 * (a.toNat / 2 ^ (k + 1)) + (a.getLsbD k).toNat := by
  rw [← BitVec.testBit_toNat, Nat.toNat_testBit, pow_succ, ← Nat.div_div_eq_div_mul, Nat.div_add_mod]

/-- One iteration: the quotient bit times the divisor and the new remainder make up the trial value. -/
theorem divLoop_succ (a b : CanonicalBits) (m : Nat) : ∃ bit : Bool,
    (divLoop a b (m + 1)).1.toNat = 2 * (divLoop a b m).1.toNat + bit.toNat ∧
    bit.toNat * b.toNat + (divLoop a b (m + 1)).2 = 2 * (divLoop a b m).2 + (a.getLsbD (238 - m)).toNat ∧
    (bit = false → (divLoop a b (m + 1)).2 < b.toNat) := by
  rw [divLoop]
  split
  · next hle => exact ⟨true, by simp [BitVec.toNat_concat, Nat.mul_comm], by simp [Nat.add_sub_cancel' hle], nofun⟩
  · next hlt => exact ⟨false, by simp [BitVec.toNat_concat, Nat.mul_comm], by simp, fun _ => Nat.lt_of_not_le hlt⟩

/-- The division law for the top `m` bits of the dividend. It holds for a zero divisor too, whose remainder is all of them. -/
theorem divLoop_spec (a b : CanonicalBits) (m : Nat) (hm : m ≤ 239) :
    (divLoop a b m).1.toNat * b.toNat + (divLoop a b m).2 = a.toNat / 2 ^ (239 - m) := by
  induction m with
  | zero => simp [divLoop, Nat.div_eq_of_lt a.isLt]
  | succ m ih =>
    obtain ⟨bit, hquot, htrial, -⟩ := divLoop_succ a b m
    have hprev := ih (by omega)
    rw [show 239 - (m + 1) = 238 - m by omega, toNat_div_two_pow_eq, show 238 - m + 1 = 239 - m by omega, ← hprev, hquot]
    linear_combination htrial

/-- R85: a divisor that is not zero is always above the remainder, as the trial value is below twice the divisor. -/
theorem divLoop_remainder_lt_divisor (a b : CanonicalBits) (hb : b.toNat ≠ 0) (m : Nat) :
    (divLoop a b m).2 < b.toNat := by
  induction m with
  | zero => exact Nat.pos_of_ne_zero hb
  | succ m ih =>
    obtain ⟨bit, -, htrial, hlow⟩ := divLoop_succ a b m
    cases bit with
    | false => exact hlow rfl
    | true =>
      have hin := Bool.toNat_le (a.getLsbD (238 - m))
      rw [Bool.toNat_true, Nat.one_mul] at htrial
      omega

/-- R86: the remainder is at most the number that the top `m` bits of the dividend spell. -/
theorem divLoop_remainder_lt_two_pow (a b : CanonicalBits) (m : Nat) (hm : m ≤ 239) : (divLoop a b m).2 < 2 ^ m :=
  calc (divLoop a b m).2
      ≤ (divLoop a b m).1.toNat * b.toNat + (divLoop a b m).2 := Nat.le_add_left _ _
    _ = a.toNat / 2 ^ (239 - m) := divLoop_spec a b m hm
    _ < 2 ^ m := Nat.div_lt_of_lt_mul (by rw [← pow_add, Nat.sub_add_cancel hm]; exact a.isLt)

/-- The division law of R86, after all 239 iterations. -/
theorem divLoop_division_law (a b : CanonicalBits) :
    a.toNat = (divLoop a b 239).1.toNat * b.toNat + (divLoop a b 239).2 := by
  rw [divLoop_spec a b 239 le_rfl, Nat.sub_self, pow_zero, Nat.div_one]

/-- Settles O23: the next trial value is below twice the bound on the remainder, and the law is that of the last iteration. -/
theorem remainderFitsTheRegister : Obligations.RemainderFitsTheRegister := by
  refine fun a b => ⟨fun m hm => ?_, fun hb => ⟨divLoop_division_law a b, divLoop_remainder_lt_divisor a b hb 239⟩⟩
  have hrem := divLoop_remainder_lt_two_pow a b m hm.le
  have hin := Bool.toNat_le (a.getLsbD (238 - m))
  exact ⟨hrem, by rw [pow_succ]; omega⟩

/-- The law with a remainder below the divisor determines the quotient (R85). -/
theorem toNat_divLoop_quotient (a b : CanonicalBits) (hb : b.toNat ≠ 0) :
    (divLoop a b 239).1.toNat = a.toNat / b.toNat := by
  have hlaw : (divLoop a b 239).2 + b.toNat * (divLoop a b 239).1.toNat = a.toNat := by
    rw [Nat.add_comm, Nat.mul_comm, ← divLoop_division_law]
  exact ((Nat.div_mod_unique (Nat.pos_of_ne_zero hb)).2 ⟨hlaw, divLoop_remainder_lt_divisor a b hb 239⟩).1.symm

theorem bsDiv_eq_some_of_ne_zero (a : CanonicalBits) {b : CanonicalBits} (hb : b.toNat ≠ 0) :
    bsDiv a b = some (divLoop a b 239).1 := by
  simp [bsDiv, bsIsZero_iff, hb]

/-- Settles O22: the zero test comes first, and after it the loop gives the quotient of the values. -/
theorem dividerDivides : Obligations.DividerDivides := fun a b =>
  ⟨(bsDiv_eq_none_iff a b).2, fun hb => ⟨_, bsDiv_eq_some_of_ne_zero a hb, toNat_divLoop_quotient a b hb⟩⟩

/-! ### DIV (R87, R100) -/

/-- The shift rule of DIV on numbers: it saturates at 0. -/
theorem toNat_shiftSaturating (sa sb : ShiftAmount) :
    (shiftSaturating sa sb).toNat = if sb.toNat ≤ sa.toNat then sa.toNat - sb.toNat else 0 := by
  rw [shiftSaturating]
  by_cases hle : sb ≤ sa
  · rw [if_pos hle, if_pos (BitVec.le_def.1 hle), BitVec.toNat_sub_of_le hle]
  · rw [if_neg hle, if_neg (mt BitVec.le_def.2 hle)]
    rfl

/-- Settles O39: a divisor that is not zero has a quotient (O22), which is encoded with the saturating shift; a zero divisor
raises. -/
theorem divDividesOrRaises : Obligations.DivDividesOrRaises := by
  refine fun rd ra rb s => ⟨decode_ofNat (by simp [encode, toNat_commandWord]), fun hb => ?_, fun hzero => ?_⟩
  · obtain ⟨-, hdivides⟩ := dividerDivides (bitsOfReg s ra) (bitsOfReg s rb)
    obtain ⟨q, hq, hquot⟩ := hdivides hb
    exact ⟨_, _, exec_div_of_some hq, completeWrite_writesOnly s rd _, (valueOf_encodeImage _ _).trans hquot,
      (tagOf_encodeImage _ _).trans (toNat_shiftSaturating _ _), inImage_encodeImage _ _⟩
  · exact ⟨_, exec_div_of_regValue_eq_zero rd ra rb hzero, raise_raisesOnly s .divisionByZero⟩

end Sys2Proof.Machine
end

section
/-! PROOFS. Construction and the shift-tag commands (R92 to R95), and the two host procedures: the decimal text as a number
with the transaction that loads it (R96), and the debug text (R97). -/

namespace Sys2Proof.Machine

/-! ### FROMINT (R90, R92) -/

theorem toNat_portVin (s : State) : (portVin s).toNat = s.txn.vin.toNat :=
  BitVec.toNat_setWidth_of_le (by omega)

/-- Settles O33: `vin` fits the canonical bits, and what is stored is its encoding with `sin`. -/
theorem fromIntConstructsTheValue : Obligations.FromIntConstructsTheValue := fun rd s =>
  ⟨decode_ofNat (by simp [encode, toNat_commandWord]), _, _, rfl, completeWrite_writesOnly s rd _,
    (valueOf_encodeImage _ _).trans (toNat_portVin s), tagOf_encodeImage _ _, inImage_encodeImage _ _⟩

/-! ### SHL and SHR (R93, R94) -/

/-- The path of SHL and SHR leaves an image in the image of `encode`, with the same value and the combined shift. -/
theorem retag_spec (g : ShiftAmount → ShiftAmount → ShiftAmount) (s : State) (ra : Reg) :
    valueOf (retag g s ra) = regValue s ra ∧ tagOf (retag g s ra) = (g (shiftOfReg s ra) (portSin s)).toNat ∧
      InImage (retag g s ra) :=
  ⟨valueOf_encodeImage _ _, tagOf_encodeImage _ _, inImage_encodeImage _ _⟩

/-- Settles O34: the path with the sum on the shifts. -/
theorem shlAddsToTheTagAndKeepsTheValue : Obligations.ShlAddsToTheTagAndKeepsTheValue := by
  intro rd ra s
  obtain ⟨hvalue, htag, himage⟩ := retag_spec shiftSum s ra
  exact ⟨decode_ofNat (by simp [encode, toNat_commandWord]), _, _, rfl, completeWrite_writesOnly s rd _, hvalue,
    htag.trans (toNat_shiftSum _ _), himage⟩

/-- Settles O35: the path with the wrapping difference on the shifts. -/
theorem shrTakesFromTheTagAndKeepsTheValue : Obligations.ShrTakesFromTheTagAndKeepsTheValue := by
  intro rd ra s
  obtain ⟨hvalue, htag, himage⟩ := retag_spec shiftDifference s ra
  exact ⟨decode_ofNat (by simp [encode, toNat_commandWord]), _, _, rfl, completeWrite_writesOnly s rd _, hvalue,
    (congrArg Nat.cast htag).trans (toNat_shiftDifference _ _), himage⟩

/-! ### One shift-tag command after another (R95) -/

/-- A second command on the first one's result keeps the canonical bits once more and combines the shift a second time. -/
theorem retag_of_readV_eq_retag {g h : ShiftAmount → ShiftAmount → ShiftAmount} {s t : State} {ra rd : Reg}
    (hread : readV t rd = retag g s ra) :
    retag h t rd = encodeImage (bitsOfReg s ra) (h (g (shiftOfReg s ra) (portSin s)) (portSin t)) := by
  simp only [retag, bitsOfReg, shiftOfReg, hread, decodeImage_encodeImage]

/-- Settles O46: taking `sin` from the sum gives the old shift back, so what is stored is the encoding of the decoded
operand, which is the operand itself when its padding is zero (O15). -/
theorem shlThenShrRestores : Obligations.ShlThenShrRestores := by
  intro rd ra s
  have hback : retag shiftDifference (completeWrite s rd (retag shiftSum s ra)) rd =
      encodeImage (decodeImage (readV s ra)).1 (decodeImage (readV s ra)).2 :=
    (retag_of_readV_eq_retag (readV_completeWrite_same s rd _)).trans
      (congrArg (encodeImage _) (add_sub_cancel_right (shiftOfReg s ra) (portSin s)))
  refine ⟨_, _, rfl, rfl, ?_⟩
  rw [readV_completeWrite_same, hback]
  exact ⟨decodeImage_encodeImage _ _, inImage_encodeImage _ _, (encodeImage_decodeImage_eq_iff _).2⟩

/-- SHL of another SHL's result is one SHL of the same operand with the sum of the two counts. -/
theorem retag_shiftSum_of_readV_eq_retag {s t u : State} {ra rd : Reg} (hread : readV t rd = retag shiftSum s ra)
    (hsame : readV u ra = readV s ra) (hsin : portSin u = portSin s + portSin t) :
    retag shiftSum t rd = retag shiftSum u ra := by
  rw [retag_of_readV_eq_retag hread]
  simp only [retag, bitsOfReg, shiftOfReg, shiftSum, hsame, hsin, add_assoc]

/-- Settles O47: the second SHL finds the first one's result in `V[rd]`, and the three runs start from the same `V[ra]`. -/
theorem shlComposes : Obligations.ShlComposes := by
  intro rd ra s m n
  refine ⟨_, _, _, rfl, rfl, rfl, ?_⟩
  rw [readV_completeWrite_same, readV_completeWrite_same]
  exact retag_shiftSum_of_readV_eq_retag (readV_completeWrite_same _ rd _) rfl rfl

/-! ### The decimal text (R96) -/

/-- The step of the parser without the wrap-around: a digit extends the number, any other character is skipped. -/
def exactDecimalStep (v : Nat) (c : Char) : Nat := if c.isDigit then v * 10 + (c.toNat - 48) else v

/-- The parser's digits are the library's. -/
theorem decimalStep_eq (accBits acc : Nat) (c : Char) :
    decimalStep accBits acc c = if c.isDigit then (acc * 10 + (c.toNat - 48)) % 2 ^ accBits else acc := by
  have hdigit : ('0' ≤ c ∧ c ≤ '9') ↔ c.isDigit = true := by simp [Char.isDigit, Char.le_def]
  simp only [decimalStep, hdigit]
  rfl

/-- Wrapping before a step as well as in it is wrapping after the exact step. -/
theorem decimalStep_mod (accBits v : Nat) (c : Char) :
    decimalStep accBits (v % 2 ^ accBits) c = exactDecimalStep v c % 2 ^ accBits := by
  rw [decimalStep_eq, exactDecimalStep]
  split
  · rw [Nat.add_mod, Nat.mod_mul_mod, ← Nat.add_mod]
  · rfl

/-- Settles O59: the remainder modulo `2^ACC_BITS` carries the exact steps to the wrapping ones, along the whole text. -/
theorem decimalTextWrapsModuloAccumulator : Obligations.DecimalTextWrapsModuloAccumulator := by
  intro accBits text
  have hwrap := List.foldl_hom (l := text) (init := 0) (· % 2 ^ accBits) (decimalStep_mod accBits)
  rw [Nat.zero_mod] at hwrap
  rw [List.foldl_filter]
  exact hwrap

theorem decimalValue_lt (accBits : Nat) (text : List Char) : decimalValue accBits text < 2 ^ accBits := by
  rw [decimalTextWrapsModuloAccumulator]
  exact Nat.mod_lt _ (Nat.two_pow_pos accBits)

theorem fromDecimalString_of_le {accBits : Nat} (h : accBits ≤ 32) (text : List Char) (shift : BitVec 32) (rd : Reg) :
    fromDecimalString accBits text shift rd =
      ⟨encode (.fromint rd), BitVec.ofNat 32 (decimalValue accBits text), shift.setWidth 35, 0⟩ :=
  if_pos h

theorem fromDecimalString_of_lt {accBits : Nat} (h : 32 < accBits) (text : List Char) (shift : BitVec 32) (rd : Reg) :
    fromDecimalString accBits text shift rd =
      ⟨encode (.encode rd), 0, shift.setWidth 35, BitVec.ofNat 280 (decimalValue accBits text)⟩ :=
  if_neg (Nat.not_le.2 h)

/-- An accumulator that fits the 32-bit port goes through it, and through the 239-bit value, unchanged. -/
theorem toNat_ofNat_decimalValue {accBits : Nat} (h : accBits ≤ 32) (text : List Char) :
    (BitVec.ofNat 32 (decimalValue accBits text)).toNat = decimalValue accBits text % 2 ^ 239 := by
  have hfits : decimalValue accBits text < 2 ^ 32 :=
    (decimalValue_lt accBits text).trans_le (Nat.pow_le_pow_right (by omega) h)
  rw [BitVec.toNat_ofNat, Nat.mod_eq_of_lt hfits, Nat.mod_eq_of_lt (hfits.trans (by norm_num))]

/-- A port of `w` bits keeps a number modulo every smaller power of two. -/
theorem toNat_ofNat_mod_two_pow (n : Nat) {k w : Nat} (h : k ≤ w) : (BitVec.ofNat w n).toNat % 2 ^ k = n % 2 ^ k := by
  rw [BitVec.toNat_ofNat, Nat.mod_mod_of_dvd n (pow_dvd_pow 2 h)]

/-- Settles O60: the issued command is FROMINT, with the effect of O33, or ENCODE, with that of O32; the port of each
carries the accumulator. -/
theorem decimalTransactionLoadsTheAccumulator : Obligations.DecimalTransactionLoadsTheAccumulator := by
  intro accBits text shift rd s
  have hshift : (shift.setWidth 35).toNat = shift.toNat := BitVec.toNat_setWidth_of_le (by omega)
  obtain hsmall | hwide := le_or_gt accBits 32
  · rw [fromDecimalString_of_le hsmall]
    obtain ⟨-, t, x, hexec, ⟨hread, -⟩, hvalue, htag, -⟩ := fromIntConstructsTheValue rd { s with txn := _ }
    refine ⟨_, t, decodeReadsBackEveryCommand _, hexec, ?_, ?_⟩
    · rw [regValue, hread, hvalue, toNat_ofNat_decimalValue hsmall]
    · rw [regTag, hread, htag, hshift]
  · rw [fromDecimalString_of_lt hwide]
    obtain ⟨-, t, x, hexec, ⟨hread, -⟩, hvalue, htag, -⟩ := encodeCommandStoresTheImage rd { s with txn := _ }
    refine ⟨_, t, decodeReadsBackEveryCommand _, hexec, ?_, ?_⟩
    · rw [regValue, hread, hvalue, toNat_ofNat_mod_two_pow _ (by omega)]
    · rw [regTag, hread, htag, hshift]

/-! ### The debug text (R97)

A text of groups of `w` characters with one separator between two groups has a period of `w + 1` characters. -/

theorem length_intercalate_add_one (sep : Char) {w : Nat} : ∀ {groups : List (List Char)}, groups ≠ [] →
    (∀ g ∈ groups, g.length = w) → ([sep].intercalate groups).length + 1 = (w + 1) * groups.length
  | [g], _, hw => by simp [List.intercalate_singleton, hw g]
  | g :: g' :: rest, _, hw => by
    have hrest := length_intercalate_add_one sep (List.cons_ne_nil g' rest) fun q hq => hw q (List.mem_cons_of_mem g hq)
    have hg : g.length = w := hw g List.mem_cons_self
    rw [List.intercalate_cons_cons, List.length_append, List.length_append, hg, List.length_cons (a := g), Nat.mul_succ, ← hrest]
    simp only [List.length_cons, List.length_nil]
    omega

/-- The text from group `i` on is the text of the groups from `i` on. -/
theorem drop_intercalate (sep : Char) {w : Nat} : ∀ (groups : List (List Char)) (i : Nat), i < groups.length →
    (∀ g ∈ groups, g.length = w) → ([sep].intercalate groups).drop ((w + 1) * i) = [sep].intercalate (groups.drop i)
  | groups, 0, _, _ => by simp
  | g :: g' :: rest, i + 1, hi, hw => by
    have hg : (g ++ [sep]).length = w + 1 := by simp [hw g]
    rw [List.intercalate_cons_cons, Nat.mul_succ, Nat.add_comm, ← List.drop_drop, List.drop_left' hg, List.drop_succ_cons]
    exact drop_intercalate sep (g' :: rest) i (Nat.lt_of_succ_lt_succ hi) fun q hq => hw q (List.mem_cons_of_mem g hq)

theorem getElem?_intercalate (sep : Char) {w : Nat} {groups : List (List Char)} (hw : ∀ g ∈ groups, g.length = w) {i : Nat}
    (hi : i < groups.length) (k : Nat) :
    ([sep].intercalate groups)[(w + 1) * i + k]? = ([sep].intercalate (groups[i] :: groups.drop (i + 1)))[k]? := by
  rw [← List.getElem?_drop, drop_intercalate sep groups i hi hw, List.drop_eq_getElem_cons hi]

/-- Character `k` of group `i` stands `k` characters into the `i`-th period. -/
theorem getElem?_intercalate_group (sep : Char) {w : Nat} {groups : List (List Char)} (hw : ∀ g ∈ groups, g.length = w)
    {i k : Nat} (hi : i < groups.length) (hk : k < w) :
    ([sep].intercalate groups)[(w + 1) * i + k]? = groups[i][k]? := by
  have hlen : groups[i].length = w := hw _ (List.getElem_mem hi)
  rw [getElem?_intercalate sep hw hi]
  cases groups.drop (i + 1) with
  | nil => rw [List.intercalate_singleton]
  | cons g' rest =>
    rw [List.intercalate_cons_cons, List.append_assoc, List.getElem?_append_left (by omega)]

/-- A group that is not the last one has the separator after it. -/
theorem getElem?_intercalate_sep (sep : Char) {w : Nat} {groups : List (List Char)} (hw : ∀ g ∈ groups, g.length = w)
    {i : Nat} (hi : i + 1 < groups.length) : ([sep].intercalate groups)[(w + 1) * i + w]? = some sep := by
  have hlen : groups[i].length = w := hw _ (List.getElem_mem (by omega))
  rw [getElem?_intercalate sep hw (by omega), List.drop_eq_getElem_cons hi, List.intercalate_cons_cons, List.append_assoc,
    List.getElem?_append_right (by omega), hlen, Nat.sub_self]
  rfl

@[simp] theorem length_formatByte (b : Byte) : (formatByte b).length = 8 := by
  simp [formatByte]

theorem getElem?_formatByte (b : Byte) {k : Nat} (hk : k < 8) :
    (formatByte b)[k]? = some (if b.getLsbD (7 - k) then '1' else '0') := by
  simp [formatByte, hk, BitVec.getMsbD]

/-- The 35 groups of the debug text. -/
def formatGroups (x : Image) : List (List Char) := (List.range 35).map fun i => formatByte (byteOf x i)

@[simp] theorem length_formatGroups (x : Image) : (formatGroups x).length = 35 := by
  simp [formatGroups]

theorem length_of_mem_formatGroups (x : Image) : ∀ g ∈ formatGroups x, g.length = 8 := by
  simp [formatGroups]

theorem formatImage_eq_intercalate (x : Image) : formatImage x = [' '].intercalate (formatGroups x) := rfl

/-- Settles O58: the text is 35 groups of eight characters, so its period is nine. -/
theorem formatWritesTheStoredBits : Obligations.FormatWritesTheStoredBits := by
  intro x
  have hw := length_of_mem_formatGroups x
  rw [formatImage_eq_intercalate]
  refine ⟨?_, fun i hi k hk => ?_, fun i hi => ?_⟩
  · have hlen := length_intercalate_add_one ' ' (by simp [formatGroups]) hw
    rw [length_formatGroups] at hlen
    omega
  · rw [getElem?_intercalate_group ' ' hw (by simpa using hi) hk, ← getElem?_formatByte _ hk]
    simp [formatGroups]
  · exact getElem?_intercalate_sep ' ' hw (by rw [length_formatGroups]; omega)

end Sys2Proof.Machine
end

section
/-! PROOFS. The two exceptions of spec/60_exceptions.md: who raises them (R100, R101), and what a raise leaves unchanged
(R102). A transaction completes with status OK or is one `raise`, so each statement is a fact about `raise`. -/

namespace Sys2Proof.Machine

/-! ### A status other than OK comes from a raise (R100, R101) -/

/-- A command completes with status OK, unless it is a DIV by 0 and raises DivisionByZero. -/
theorem exec_status_cases {i : Instr} {s t : State} (h : exec i s = .next t) : t.rsp.status = .ok ∨
    ((∃ rd ra rb, i = .div rd ra rb ∧ regValue s rb = 0) ∧ t = raise s .divisionByZero) := by
  obtain ⟨rd, x, rfl⟩ | ⟨p, hok, rfl⟩ | ⟨⟨rd, ra, rb, hi, hq⟩, ht⟩ := exec_cases i s t h
  · exact .inl rfl
  · exact .inl hok
  · exact .inr ⟨⟨rd, ra, rb, hi, (bsDiv_eq_none_iff _ _).1 hq⟩, ht⟩

/-- A transaction completes with status OK, or is accepted and raises one of the two exceptions. -/
theorem step_command_status_cases {s t : State} {c : Transaction} {rest : List HostEvent}
    (hhost : s.host = .command c :: rest) (h : step s = .next t) :
    t.rsp.status = .ok ∨ ∃ cause, t = raise (accept s c rest) cause := by
  obtain ⟨i, -, hexec⟩ | ⟨e, -, ht⟩ := step_command_cases hhost h
  · obtain hok | ⟨-, ht⟩ := exec_status_cases hexec
    · exact .inl hok
    · exact .inr ⟨.divisionByZero, ht⟩
  · exact .inr ⟨.illegalCommand, ht⟩

/-- A word that no row selects raises IllegalCommand when it is presented (R34, R101). -/
theorem step_of_legalWord_eq_false {s : State} {c : Transaction} {rest : List HostEvent}
    (hhost : s.host = .command c :: rest) (hlegal : legalWord c.cmd = false) :
    step s = .next (raise (accept s c rest) .illegalCommand) := by
  cases hdec : decode c.cmd with
  | ok i => simp [legalWord_of_decode_ok hdec] at hlegal
  | error e => exact step_of_decode_error hhost hdec

/-! ### What a raise does (R102) -/

/-- The code of each exception is the mask of its sticky bit (R12, R100, R101). -/
theorem causeBit_eq_statusCode (cause : Cause) : causeBit cause = statusCode (causeStatus cause) := by
  cases cause <;> rfl

theorem raise_fsr_eq_or_statusCode (s : State) (cause : Cause) :
    (raise s cause).fsr = s.fsr ||| statusCode (raise s cause).rsp.status := by
  rw [raise_fsr, setSticky, causeBit_eq_statusCode, raise_rsp]

/-! ### The statements -/

/-- Settles O7: the word does not decode, so the step is the raise, with the frame of a raise. -/
theorem illegalWordRaisesIllegalCommand : Obligations.IllegalWordRaisesIllegalCommand :=
  ⟨rfl, fun s c rest hhost hlegal =>
    ⟨_, step_of_legalWord_eq_false hhost hlegal, raise_raisesOnly (accept s c rest) .illegalCommand⟩⟩

/-- Settles O48: a command whose status is not OK is a DIV by 0 that raised, and a DIV by 0 raises. -/
theorem divZeroRaisedByDivAlone : Obligations.DivZeroRaisedByDivAlone := by
  refine ⟨rfl, fun i s t h => ?_⟩
  have hraised (hdz : t.rsp.status = .divZero) :
      (∃ rd ra rb, i = .div rd ra rb ∧ regValue s rb = 0) ∧ t = raise s .divisionByZero :=
    (exec_status_cases h).resolve_left (by simp [hdz])
  refine ⟨⟨fun hdz => (hraised hdz).1, ?_⟩, fun hdz => ?_⟩
  · rintro ⟨rd, ra, rb, rfl, hzero⟩
    rw [exec_div_of_regValue_eq_zero rd ra rb hzero] at h
    cases h
    rfl
  · obtain ⟨-, rfl⟩ := hraised hdz
    exact raise_raisesOnly s .divisionByZero

/-- Settles O49: a step whose status is not OK is one raise after accepting the transaction. -/
theorem raiseDisturbsNothing : Obligations.RaiseDisturbsNothing := by
  intro s t c rest hhost h hstatus
  obtain hok | ⟨cause, rfl⟩ := step_command_status_cases hhost h
  · exact absurd hok hstatus
  · exact ⟨fun _ => rfl, raise_fsr_eq_or_statusCode (accept s c rest) cause, rfl, rfl, rfl, rfl⟩

end Sys2Proof.Machine
end

section
/-! PROOFS. Reset (R110): what a reset event of the host clears, and the response invariant at the reset state. -/

namespace Sys2Proof.Machine

/-- Settles O8: the next state is `resetBlock` after taking the event off the stream; the fields of both are read off. -/
theorem resetEventClearsFsrAndResponse : Obligations.ResetEventClearsFsrAndResponse := by
  intro s rest hhost
  exact ⟨resetBlock (advanceHost s rest), step_of_reset hhost, resetBlock_fsr _, resetBlock_rsp _,
    (resetBlock_host _).trans (advanceHost_host s rest)⟩

/-- Settles O56: the status after reset is OK, which is consistent with any FSR. -/
theorem resetIsResponseConsistent : Obligations.ResetIsResponseConsistent := by
  obtain ⟨-, hrsp, -⟩ := resetStateIsCleared
  exact responseConsistent_of_ok (congrArg Response.status hrsp)

end Sys2Proof.Machine
end
